-- ==== Sys2Proof/Word.lean ====
section
/-! DEFINITION. The bit-vector types the spec names (00_scope.md R10, R11; 30_encoding.md R64). -/

namespace Sys2Proof

/-- A register, a memory byte or an immediate `kk`: 8 bits, unsigned (R11, R21, R45). -/
abbrev Byte := BitVec 8

/-- `I`, `pc`, a stack slot or an instruction word: 16 bits, unsigned (R24, R26, R30, R63). -/
abbrev Word := BitVec 16

/-- A 4-bit field of an instruction word: a register index `x`, `y`, or the count `n` (R64). -/
abbrev Nibble := BitVec 4

/-- The 12-bit address field `nnn` (R64). -/
abbrev Addr := BitVec 12

end Sys2Proof
end

