-- ==== Sys2Proof/Syntax.lean ====
section
/-! DEFINITION. The 34 instructions (30_encoding.md R73), one constructor per row of spec/opcode_table.json, with the
fields its format names (R64, R65). -/

namespace Sys2Proof

/-- An instruction of the core. `x` and `y` are register indices, `kk` an immediate byte, `nnn` an address and `n` a
count of sprite bytes. The low nibble of families 5 and 9 is not examined (R69), so it is no operand; the `y` of the two
shifts is encoded but not used (R75, R114, R116), so it is one. Log entry 9. -/
inductive Instr where
  /-- `00E0` (R125) -/
  | cls
  /-- `00EE` (R93) -/
  | ret
  /-- `1nnn` (R94) -/
  | jp (nnn : Addr)
  /-- `2nnn` (R95) -/
  | call (nnn : Addr)
  /-- `3xkk` (R96) -/
  | seVxKk (x : Nibble) (kk : Byte)
  /-- `4xkk` (R97) -/
  | sneVxKk (x : Nibble) (kk : Byte)
  /-- `5xy0` (R98) -/
  | seVxVy (x y : Nibble)
  /-- `9xy0` (R99) -/
  | sneVxVy (x y : Nibble)
  /-- `6xkk` (R106) -/
  | ldVxKk (x : Nibble) (kk : Byte)
  /-- `7xkk` (R107) -/
  | addVxKk (x : Nibble) (kk : Byte)
  /-- `8xy0` (R108) -/
  | ldVxVy (x y : Nibble)
  /-- `8xy1` (R109) -/
  | orVxVy (x y : Nibble)
  /-- `8xy2` (R110) -/
  | andVxVy (x y : Nibble)
  /-- `8xy3` (R111) -/
  | xorVxVy (x y : Nibble)
  /-- `8xy4` (R112) -/
  | addVxVy (x y : Nibble)
  /-- `8xy5` (R113) -/
  | subVxVy (x y : Nibble)
  /-- `8xy6` (R114); `y` is encoded and not used -/
  | shrVx (x y : Nibble)
  /-- `8xy7` (R115) -/
  | subnVxVy (x y : Nibble)
  /-- `8xyE` (R116); `y` is encoded and not used -/
  | shlVx (x y : Nibble)
  /-- `Annn` (R118) -/
  | ldI (nnn : Addr)
  /-- `Bnnn` (R101) -/
  | jpV0 (nnn : Addr)
  /-- `Cxkk` (R117) -/
  | rnd (x : Nibble) (kk : Byte)
  /-- `Dxyn` (R126) -/
  | drw (x y n : Nibble)
  /-- `Ex9E` (R131) -/
  | skp (x : Nibble)
  /-- `ExA1` (R132) -/
  | sknp (x : Nibble)
  /-- `Fx07` (R133) -/
  | ldVxDt (x : Nibble)
  /-- `Fx0A` (R134) -/
  | ldVxK (x : Nibble)
  /-- `Fx15` (R135) -/
  | ldDtVx (x : Nibble)
  /-- `Fx18` (R136) -/
  | ldStVx (x : Nibble)
  /-- `Fx1E` (R119) -/
  | addI (x : Nibble)
  /-- `Fx29` (R120) -/
  | ldF (x : Nibble)
  /-- `Fx33` (R121) -/
  | ldB (x : Nibble)
  /-- `Fx55` (R122) -/
  | stMemVx (x : Nibble)
  /-- `Fx65` (R123) -/
  | ldMemVx (x : Nibble)
deriving DecidableEq, Repr

end Sys2Proof
end

