-- ==== Sys2Proof/Decode.lean ====
section
/-! DEFINITION. The decoder (30_encoding.md R64, R67 to R72; 40_cycle_engine.md R83) and the encoder (R65, R77). -/

namespace Sys2Proof

/-- What decoding a word gives: one of the 34 instructions, or the rejection of the word by name (R70, R83). -/
inductive Decoded where
  | instr (i : Instr)
  | unknownOpcode (word : Word)
deriving DecidableEq, Repr

/-- What decoding a sequence of bytes gives: what its first word decodes to and the bytes after it, or the rejection of a
sequence too short to hold a word (R63). -/
inductive DecodedBytes where
  | word (d : Decoded) (rest : List Byte)
  | truncated
deriving DecidableEq, Repr

/-- `w[15:12]`, the opcode family (R64). -/
def fieldFamily (w : Word) : Nibble := w.extractLsb' 12 4

/-- `x = w[11:8]` (R64). -/
def fieldX (w : Word) : Nibble := w.extractLsb' 8 4

/-- `y = w[7:4]` (R64). -/
def fieldY (w : Word) : Nibble := w.extractLsb' 4 4

/-- `n = w[3:0]` (R64). -/
def fieldN (w : Word) : Nibble := w.extractLsb' 0 4

/-- `kk = w[7:0]` (R64). -/
def fieldKk (w : Word) : Byte := w.extractLsb' 0 8

/-- `nnn = w[11:0]` (R64). -/
def fieldNnn (w : Word) : Addr := w.extractLsb' 0 12

/-- Family 0: the whole word selects (R68). -/
def decodeFamily0 (w : Word) : Decoded :=
  if w = 0x00E0#16 then .instr .cls
  else if w = 0x00EE#16 then .instr .ret
  else .unknownOpcode w

/-- Family 8: the low nibble selects (R68). -/
def decodeFamily8 (w : Word) : Decoded :=
  let x := fieldX w
  let y := fieldY w
  let n := fieldN w
  if n = 0x0#4 then .instr (.ldVxVy x y)
  else if n = 0x1#4 then .instr (.orVxVy x y)
  else if n = 0x2#4 then .instr (.andVxVy x y)
  else if n = 0x3#4 then .instr (.xorVxVy x y)
  else if n = 0x4#4 then .instr (.addVxVy x y)
  else if n = 0x5#4 then .instr (.subVxVy x y)
  else if n = 0x6#4 then .instr (.shrVx x y)
  else if n = 0x7#4 then .instr (.subnVxVy x y)
  else if n = 0xE#4 then .instr (.shlVx x y)
  else .unknownOpcode w

/-- Family E: the low byte selects (R68). -/
def decodeFamilyE (w : Word) : Decoded :=
  let x := fieldX w
  let kk := fieldKk w
  if kk = 0x9E#8 then .instr (.skp x)
  else if kk = 0xA1#8 then .instr (.sknp x)
  else .unknownOpcode w

/-- Family F: the low byte selects (R68). -/
def decodeFamilyF (w : Word) : Decoded :=
  let x := fieldX w
  let kk := fieldKk w
  if kk = 0x07#8 then .instr (.ldVxDt x)
  else if kk = 0x0A#8 then .instr (.ldVxK x)
  else if kk = 0x15#8 then .instr (.ldDtVx x)
  else if kk = 0x18#8 then .instr (.ldStVx x)
  else if kk = 0x1E#8 then .instr (.addI x)
  else if kk = 0x29#8 then .instr (.ldF x)
  else if kk = 0x33#8 then .instr (.ldB x)
  else if kk = 0x55#8 then .instr (.stMemVx x)
  else if kk = 0x65#8 then .instr (.ldMemVx x)
  else .unknownOpcode w

/-- Decoding a word: the family selects, and families 0, 8, E and F have sub-selectors (R67, R68, R69). -/
def decode (w : Word) : Decoded :=
  let f := fieldFamily w
  if f = 0x0#4 then decodeFamily0 w
  else if f = 0x1#4 then .instr (.jp (fieldNnn w))
  else if f = 0x2#4 then .instr (.call (fieldNnn w))
  else if f = 0x3#4 then .instr (.seVxKk (fieldX w) (fieldKk w))
  else if f = 0x4#4 then .instr (.sneVxKk (fieldX w) (fieldKk w))
  else if f = 0x5#4 then .instr (.seVxVy (fieldX w) (fieldY w))
  else if f = 0x6#4 then .instr (.ldVxKk (fieldX w) (fieldKk w))
  else if f = 0x7#4 then .instr (.addVxKk (fieldX w) (fieldKk w))
  else if f = 0x8#4 then decodeFamily8 w
  else if f = 0x9#4 then .instr (.sneVxVy (fieldX w) (fieldY w))
  else if f = 0xA#4 then .instr (.ldI (fieldNnn w))
  else if f = 0xB#4 then .instr (.jpV0 (fieldNnn w))
  else if f = 0xC#4 then .instr (.rnd (fieldX w) (fieldKk w))
  else if f = 0xD#4 then .instr (.drw (fieldX w) (fieldY w) (fieldN w))
  else if f = 0xE#4 then decodeFamilyE w
  else decodeFamilyF w

/-- The word two bytes make: the byte at the lower address is the high byte (20_memory.md R50). -/
def wordOfBytes (hi lo : Byte) : Word := hi ++ lo

/-- Decoding a sequence of bytes: its first two make the word, high byte first (R50, R63). -/
def decodeBytes : List Byte → DecodedBytes
  | hi :: lo :: rest => .word (decode (wordOfBytes hi lo)) rest
  | _ => .truncated

/-- Format `A`: `ffff nnnn nnnn nnnn` (R65). -/
def wordA (f : Nibble) (nnn : Addr) : Word := f ++ nnn

/-- Formats `XK` and `X`: `ffff xxxx kkkk kkkk`, the low byte an immediate or a selector (R65). -/
def wordXK (f x : Nibble) (kk : Byte) : Word := f ++ x ++ kk

/-- Formats `XYN` and `XY`: `ffff xxxx yyyy nnnn`, the low nibble a count or a selector (R65). -/
def wordXYN (f x y n : Nibble) : Word := f ++ x ++ y ++ n

/-- The encoder (R65, R77): each instruction in its format, its fields from bit 15 down to bit 0. -/
def encode : Instr → Word
  | .cls => 0x00E0#16
  | .ret => 0x00EE#16
  | .jp nnn => wordA 0x1#4 nnn
  | .call nnn => wordA 0x2#4 nnn
  | .seVxKk x kk => wordXK 0x3#4 x kk
  | .sneVxKk x kk => wordXK 0x4#4 x kk
  | .seVxVy x y => wordXYN 0x5#4 x y 0x0#4
  | .sneVxVy x y => wordXYN 0x9#4 x y 0x0#4
  | .ldVxKk x kk => wordXK 0x6#4 x kk
  | .addVxKk x kk => wordXK 0x7#4 x kk
  | .ldVxVy x y => wordXYN 0x8#4 x y 0x0#4
  | .orVxVy x y => wordXYN 0x8#4 x y 0x1#4
  | .andVxVy x y => wordXYN 0x8#4 x y 0x2#4
  | .xorVxVy x y => wordXYN 0x8#4 x y 0x3#4
  | .addVxVy x y => wordXYN 0x8#4 x y 0x4#4
  | .subVxVy x y => wordXYN 0x8#4 x y 0x5#4
  | .shrVx x y => wordXYN 0x8#4 x y 0x6#4
  | .subnVxVy x y => wordXYN 0x8#4 x y 0x7#4
  | .shlVx x y => wordXYN 0x8#4 x y 0xE#4
  | .ldI nnn => wordA 0xA#4 nnn
  | .jpV0 nnn => wordA 0xB#4 nnn
  | .rnd x kk => wordXK 0xC#4 x kk
  | .drw x y n => wordXYN 0xD#4 x y n
  | .skp x => wordXK 0xE#4 x 0x9E#8
  | .sknp x => wordXK 0xE#4 x 0xA1#8
  | .ldVxDt x => wordXK 0xF#4 x 0x07#8
  | .ldVxK x => wordXK 0xF#4 x 0x0A#8
  | .ldDtVx x => wordXK 0xF#4 x 0x15#8
  | .ldStVx x => wordXK 0xF#4 x 0x18#8
  | .addI x => wordXK 0xF#4 x 0x1E#8
  | .ldF x => wordXK 0xF#4 x 0x29#8
  | .ldB x => wordXK 0xF#4 x 0x33#8
  | .stMemVx x => wordXK 0xF#4 x 0x55#8
  | .ldMemVx x => wordXK 0xF#4 x 0x65#8

/-- The word's bytes as memory holds them: the high byte at the lower address (R50, R51). -/
def bytesOfWord (w : Word) : List Byte := [w.extractLsb' 8 8, w.extractLsb' 0 8]

/-- The word whose low `nbits` bits are those of `w` and whose other bits are 0, numbered as spec/opcode_table.json
numbers them: bit 0 the least significant bit of the instruction's one word (R10, R63). -/
def tableWord (nbits w : Nat) : Word := BitVec.ofNat 16 (w % 2 ^ nbits)

/-- The instruction the decoder reads from the bytes of a table word, `none` where it rejects them. -/
def decodeTableWord (nbits w : Nat) : Option Instr :=
  match decodeBytes (bytesOfWord (tableWord nbits w)) with
  | .word (.instr i) _ => some i
  | .word (.unknownOpcode _) _ => none
  | .truncated => none

end Sys2Proof
end

