-- ==== Sys2Proof/Config.lean ====
section
/-! DEFINITION. The implementation parameters of 00_scope.md R9, and what the spec leaves free: the font bytes, the
random bytes and the cycle rate. The three constants with no body are parameters: nothing in Lean can tell their values,
so a theorem about the model holds for every value of them. -/

namespace Sys2Proof.Config

/-- `MEM_SIZE` (R9, R45). -/
def memSize : Nat := 0x1000

/-- `PROG_BASE` (R9, R61). -/
def progBase : Nat := 0x200

/-- `PROG_MAX`: the longest program `loadProgram` accepts (R9, R61). -/
def progMax : Nat := 0xE00

/-- `FB_W` (R9, R34). -/
def fbWidth : Nat := 64

/-- `FB_H` (R9, R34). -/
def fbHeight : Nat := 32

/-- `STACK_DEPTH` (R9, R30). -/
def stackDepth : Nat := 16

/-- `NUM_KEYS` (R9, R33). -/
def numKeys : Nat := 16

/-- `FONT_BASE` (R9, R40). -/
def fontBase : Nat := 0x000

/-- `FONT_LEN` (R9, R40). -/
def fontLen : Nat := 80

/-- `FONT` (R9, R40, D25): the 80 font bytes, an open parameter of the spec.
DESIGN CHOICE, log entry 1: it has no body, so every theorem holds for every font. Safe. -/
opaque font : Vector Byte 80

/-- The glyphs 0 to 7 of the default font (R40). -/
def defaultGlyphsLow : Vector Byte 40 :=
  #v[0xF0, 0x90, 0x90, 0x90, 0xF0,  0x20, 0x60, 0x20, 0x20, 0x70,  0xF0, 0x10, 0xF0, 0x80, 0xF0,  0xF0, 0x10, 0xF0, 0x10, 0xF0,
     0x90, 0x90, 0xF0, 0x10, 0x10,  0xF0, 0x80, 0xF0, 0x10, 0xF0,  0xF0, 0x80, 0xF0, 0x90, 0xF0,  0xF0, 0x10, 0x20, 0x40, 0x40]

/-- The glyphs 8 to F of the default font (R40). -/
def defaultGlyphsHigh : Vector Byte 40 :=
  #v[0xF0, 0x90, 0xF0, 0x90, 0xF0,  0xF0, 0x90, 0xF0, 0x10, 0xF0,  0xF0, 0x90, 0xF0, 0x90, 0x90,  0xE0, 0x90, 0xE0, 0x90, 0xE0,
     0xF0, 0x80, 0x80, 0x80, 0xF0,  0xE0, 0x90, 0x90, 0x90, 0xE0,  0xF0, 0x80, 0xF0, 0x80, 0xF0,  0xF0, 0x80, 0xF0, 0x80, 0x80]

/-- The default the spec gives for `FONT` (R40). The machine does not use it: `font` is any font. A claim that reads glyph
bytes takes `font = defaultFont` as a hypothesis. -/
def defaultFont : Vector Byte 80 := defaultGlyphsLow ++ defaultGlyphsHigh

/-- The byte `Draw()` returns the k-th time it is called (R117, R150, D24): a free value.
DESIGN CHOICE, log entry 2: it has no body, so every theorem holds for every sequence of draws. Safe. -/
opaque draw : Nat → Byte

/-- `CYCLE_RATE` (R9, R159, D35): an open parameter on which no rule depends, and which nothing in the model reads. -/
opaque cycleRate : Nat

end Sys2Proof.Config
end

