-- ==== Sys2Proof/Machine/State.lean ====
section
/-! DEFINITION. The Machine State (10_state.md R20) as plain data, its value after reset (R41), and the reasons a step can
stop. -/

namespace Sys2Proof.Machine

/-- The 4096-byte memory (20_memory.md R45): the bytes that differ from what an unlisted address reads as, addresses
strictly rising (`Memory.wf`, `Memory.unlisted` in Machine/Ops.lean). -/
abbrev Memory := List Host.Cell

/-- The framebuffer (R34): 32 rows, top to bottom, of 64 pixels, left to right; `true` is on. -/
abbrev Framebuffer := Vector (Vector Bool 64) 32

/-- The space an `OutOfBounds` error is about (60_exceptions.md R139). -/
inductive Space where
  /-- a memory address at 0x1000 or above -/
  | mem
  /-- a sum that does not fit `I` -/
  | ireg
  /-- a key index above 0xF -/
  | key
deriving DecidableEq, Repr

/-- The fatal errors with their payloads (R138, R139, R140). -/
inductive FatalError where
  | outOfBounds (ipc : Word) (space : Space) (index : Nat)
  | stackOverflow (ipc : Word)
  | stackUnderflow (ipc : Word)
deriving DecidableEq, Repr

/-- What a cycle reports in `out.err` (R37, R138, R139). -/
inductive CycleError where
  /-- `NONE`: no error this cycle -/
  | none
  /-- `UnknownOpcode(ipc, word)`, the recoverable error (R141) -/
  | unknownOpcode (ipc word : Word)
  /-- a fatal error -/
  | fatal (e : FatalError)
deriving DecidableEq, Repr

/-- The output record of a cycle (R37). -/
structure Output where
  fbChanged : Bool
  clearRequested : Bool
  tone : Bool
  err : CycleError
deriving DecidableEq, Repr

/-- The run status (R38). -/
inductive Status where
  | running
  | halted (e : FatalError)
deriving DecidableEq, Repr

/-- The reasons a step can fault: none. Every error of the spec has its whole effect described (R140, R141), so it is a
next state, and no step of this model faults (log entry 4). -/
inductive Fault where
deriving DecidableEq, Repr

/-- The reasons a step can refuse. -/
inductive Refusal where
  /-- Raised by an arm of `exec` whose instruction has no meaning yet; no arm of this model raises it. Safe: the machine
  stops where the hardware goes on. -/
  | notModelled (mnemonic : String)
deriving DecidableEq, Repr

/-- The Machine State (R20), and the model's own count of random bytes drawn. -/
structure State where
  /-- memory (R45) -/
  mem : Memory
  /-- V0 to VF (R21) -/
  v : Vector Byte 16
  /-- the address register I (R24) -/
  i : Word
  /-- the program counter (R26) -/
  pc : Word
  /-- the stack pointer, the count of occupied slots, 0..16 (R29) -/
  sp : Fin 17
  /-- the call stack (R30) -/
  stack : Vector Word 16
  /-- the delay timer DT (R31) -/
  dt : Byte
  /-- the sound timer ST (R32) -/
  st : Byte
  /-- the input latch (R33) -/
  key : Vector Bool 16
  /-- the framebuffer (R34) -/
  fb : Framebuffer
  /-- the output record (R37) -/
  out : Output
  /-- the run status (R38) -/
  status : Status
  /-- The model's own: how many bytes `Draw()` has given. DESIGN CHOICE, log entry 2. -/
  draws : Nat
deriving DecidableEq, Repr

/-- The output record with every flag false and the error given (R79, R80). -/
def Output.quiet (e : CycleError) : Output := ⟨false, false, false, e⟩

/-- The machine right after reset (R41, 70_reset_and_hazards.md R161). No address is listed in memory: an unlisted address
reads as the reset contents. `draws` starts at 0: DESIGN CHOICE, log entry 2. -/
def State.reset : State where
  mem := []
  v := Vector.replicate 16 0x00#8
  i := 0x0000#16
  pc := 0x0200#16
  sp := 0
  stack := Vector.replicate 16 0x0000#16
  dt := 0x00#8
  st := 0x00#8
  key := Vector.replicate 16 false
  fb := Vector.replicate 32 (Vector.replicate 64 false)
  out := Output.quiet .none
  status := .running
  draws := 0

end Sys2Proof.Machine
end

