-- ==== Sys2Proof/Machine/Ops.lean ====
section
/-! DEFINITION. The named operations over memory, registers, stack, keys, pixels and outputs; raising an error; the fetch
and the timer step. -/

namespace Sys2Proof.Machine

/-! ### Memory (20_memory.md) -/

/-- What an address not listed in memory reads as: the reset contents, `FONT` at 0x000 to 0x04F and 0x00 elsewhere
(10_state.md R40, R41). Log entry 1. -/
def Memory.unlisted (a : Nat) : Byte :=
  if h : a < 80 then Config.font[a] else 0x00#8

/-- The canonical form: addresses below 0x1000 and strictly rising, and no entry equal to what an unlisted address reads
as. -/
abbrev Memory.wf (m : Memory) : Prop :=
  m.Pairwise (fun c d => c.1 < d.1) ∧ ∀ c ∈ m, c.1 < Config.memSize ∧ c.2 ≠ Memory.unlisted c.1

/-- The byte at an address, listed or not. -/
def Memory.lookup (m : Memory) (a : Nat) : Byte :=
  match m with
  | [] => Memory.unlisted a
  | c :: m => if c.1 = a then c.2 else Memory.lookup m a

/-- The entry for a byte: none where the byte is what the unlisted address reads as. -/
def Memory.entry (a : Nat) (b : Byte) : Memory :=
  if b = Memory.unlisted a then [] else [(a, b)]

/-- The memory with one byte replaced, in canonical form. -/
def Memory.insert (m : Memory) (a : Nat) (b : Byte) : Memory :=
  match m with
  | [] => Memory.entry a b
  | c :: m =>
    if a < c.1 then Memory.entry a b ++ c :: m
    else if a = c.1 then Memory.entry a b ++ m
    else c :: Memory.insert m a b

/-- `MemWrite(addr, 1, v)` (00_scope.md R13). No instruction calls it with an address of 0x1000 or above: such a call
leaves memory as it is. Log entry 7. -/
def Memory.write (m : Memory) (a : Nat) (b : Byte) : Memory :=
  if a < Config.memSize then Memory.insert m a b else m

/-- Consecutive bytes written from an address up, in increasing order. -/
def Memory.writeBytes (m : Memory) (a : Nat) : List Byte → Memory
  | [] => m
  | b :: bs => Memory.writeBytes (Memory.write m a b) (a + 1) bs

/-- `MemRead(addr, 1)` (00_scope.md R13). -/
def State.readByte (s : State) (a : Nat) : Byte := Memory.lookup s.mem a

/-- Reading `n` consecutive bytes from an address up (R51). -/
def State.readBytes (s : State) (a n : Nat) : List Byte :=
  (List.range n).map (fun k => s.readByte (a + k))

/-- Storing consecutive bytes from an address up (R51). -/
def State.storeBytes (s : State) (a : Nat) (bs : List Byte) : State :=
  { s with mem := Memory.writeBytes s.mem a bs }

/-! ### Registers (10_state.md) -/

/-- `V[x]` (R21). -/
def State.readV (s : State) (x : Nibble) : Byte := s.v[x.toNat]'x.isLt

/-- `V[x] <- b` (R21). -/
def State.writeV (s : State) (x : Nibble) (b : Byte) : State :=
  { s with v := s.v.set x.toNat b x.isLt }

/-- The bytes of V0 to Vx, in order (43_index_memory.md R122). -/
def State.readVs (s : State) (x : Nibble) : List Byte := s.v.toList.take (x.toNat + 1)

/-- Registers loaded with consecutive bytes, from the register of index `k` up (R123). -/
def loadRegs (v : Vector Byte 16) (k : Nat) : List Byte → Vector Byte 16
  | [] => v
  | b :: bs => loadRegs (v.setIfInBounds k b) (k + 1) bs

/-- V0, V1 and so on loaded with consecutive bytes (R123). -/
def State.writeVs (s : State) (bs : List Byte) : State := { s with v := loadRegs s.v 0 bs }

/-- `I <- a` (R24). -/
def State.setI (s : State) (a : Word) : State := { s with i := a }

/-- `pc <- target` (R26). -/
def State.setPc (s : State) (target : Word) : State := { s with pc := target }

/-- `DT <- b` (R31). -/
def State.setDt (s : State) (b : Byte) : State := { s with dt := b }

/-- `ST <- b` (R32). -/
def State.setSt (s : State) (b : Byte) : State := { s with st := b }

/-- A skip: `pc <- pc + 2` on top of the fetch advance, if its condition holds (41_control_flow.md R96 to R100).
Modulo 2^16: DEDUCED, log entry 3. -/
def State.skipIf (s : State) (cond : Bool) : State :=
  if cond then s.setPc (s.pc + 2) else s

/-- `ipc`, the instruction address (00_scope.md R19), of the instruction executing: the fetch left pc = `ipc + 2` (R82).
DEDUCED, log entry 6. -/
def State.ipc (s : State) : Word := s.pc - 2

/-! ### Call stack (R29, R30) -/

/-- Push: `stack[sp] <- w; sp <- sp + 1`; `none` when all 16 slots are occupied. -/
def State.push (s : State) (w : Word) : Option State :=
  if h : s.sp.val < 16 then
    some { s with stack := s.stack.set s.sp.val w, sp := ⟨s.sp.val + 1, by omega⟩ }
  else none

/-- Pop: `sp <- sp - 1`, and the word in `stack[sp]`, whose slot keeps its value; `none` when no slot is occupied. -/
def State.pop (s : State) : Option (Word × State) :=
  if h : 0 < s.sp.val then
    some (s.stack[s.sp.val - 1], { s with sp := ⟨s.sp.val - 1, by omega⟩ })
  else none

/-! ### Keys (R33) -/

/-- `key[k]`; an index above 0xF names no key (45_keys_timers.md R137). -/
def State.keyAt (s : State) (k : Nat) : Bool := s.key.toList.getD k false

/-- The lowest index of a pressed key, if any key is pressed (R134). -/
def State.lowestKey (s : State) : Option Nat := (List.range Config.numKeys).find? s.keyAt

/-! ### Framebuffer (R34) -/

/-- `fb[py][px]`, off outside the grid. -/
def Framebuffer.pixel (fb : Framebuffer) (px py : Nat) : Bool :=
  if h : px < 64 ∧ py < 32 then fb[py][px] else false

/-- `fb[py][px] <- not fb[py][px]`, for a pixel on the grid. -/
def Framebuffer.toggle (fb : Framebuffer) (px py : Nat) : Framebuffer :=
  if h : px < 64 ∧ py < 32 then fb.set py (fb[py].set px (!fb[py][px])) else fb

/-- Every pixel off (44_display.md R125). -/
def Framebuffer.cleared : Framebuffer := Vector.replicate 32 (Vector.replicate 64 false)

/-- What the blit carries along: the framebuffer and the collision bit `c` (R126). -/
abbrev Blit := Framebuffer × Bool

/-- One set bit of a sprite at a column and a row: dropped off the grid (R128), else it collides with a pixel that is on
(R129) and flips the pixel. -/
def Blit.plot (px py : Nat) (a : Blit) : Blit :=
  if px < Config.fbWidth ∧ py < Config.fbHeight then
    (Framebuffer.toggle a.1 px py, a.2 || Framebuffer.pixel a.1 px py)
  else a

/-- Bit `b` of a sprite row, counted from the left: bit 7 is the leftmost (R127). -/
def spriteBit (row : Byte) (b : Nat) : Bool := row.getLsbD (7 - b)

/-- One sprite row, its eight bits from left to right (R126, R127). -/
def Blit.row (ox py : Nat) (row : Byte) (a : Blit) : Blit :=
  (List.range 8).foldl (fun a b => if spriteBit row b then Blit.plot (ox + b) py a else a) a

/-- The sprite's rows from top to bottom (R126, R127). -/
def Blit.rows (ox oy : Nat) : List Byte → Blit → Blit
  | [], a => a
  | row :: rest, a => Blit.rows ox (oy + 1) rest (Blit.row ox oy row a)

/-! ### Outputs, errors and halting (40_cycle_engine.md, 60_exceptions.md) -/

/-- R80: the output record at the start of a cycle. -/
def State.clearOut (s : State) : State := { s with out := Output.quiet .none }

/-- Raising a fatal error: `status <- halted(e)`, `out.err <- e`, and nothing else (R86, R140). -/
def State.raise (s : State) (e : FatalError) : State :=
  { s with status := .halted e, out := { s.out with err := .fatal e } }

/-- Reporting the recoverable error: `out.err <- UnknownOpcode(ipc, word)` (R85, R141). -/
def State.reportUnknown (s : State) (ipc word : Word) : State :=
  { s with out := { s.out with err := .unknownOpcode ipc word } }

/-- The output of a cycle on a halted machine (R79). DEDUCED, log entry 5: the record it returns stands in `out`. -/
def State.reportHalted (s : State) (e : FatalError) : State :=
  { s with out := Output.quiet (.fatal e) }

/-- An instruction with one check (R143): the error it raises if the check fails, else its effect. -/
def raiseOr (check : Option FatalError) (s : State) (effect : State) : Host.Outcome State Fault Refusal :=
  match check with
  | some e => .next (s.raise e)
  | none => .next effect

/-- The check of an access to the `n` bytes at `a`: an address at 0x1000 or above is `OutOfBounds`, whose index is the
lowest such address the access would touch (20_memory.md R49, R55; R139). -/
def State.checkRange (s : State) (a n : Nat) : Option FatalError :=
  if 0 < n ∧ Config.memSize ≤ a + n - 1 then some (.outOfBounds s.ipc .mem (max a Config.memSize)) else none

/-- The check of a sum that goes to `I` (43_index_memory.md R119). -/
def State.checkIreg (s : State) (sum : Nat) : Option FatalError :=
  if 0xFFFF < sum then some (.outOfBounds s.ipc .ireg sum) else none

/-- The check of a key index (R137). -/
def State.checkKey (s : State) (k : Nat) : Option FatalError :=
  if 0xF < k then some (.outOfBounds s.ipc .key k) else none

/-! ### Fetch and timers (40_cycle_engine.md) -/

/-- The fetch bound check (R81). -/
def State.checkFetch (s : State) : Option FatalError :=
  if 0xFFE < s.pc.toNat then some (.outOfBounds s.pc .mem (max s.pc.toNat Config.memSize)) else none

/-- The word the fetch reads at pc and pc + 1, high byte first (R50, R82). -/
def State.fetchWord (s : State) : Word :=
  wordOfBytes (s.readByte s.pc.toNat) (s.readByte (s.pc.toNat + 1))

/-- The fetch advance, `pc <- ipc + 2` (R82). Modulo 2^16: DEDUCED, log entry 3. -/
def State.advance (s : State) : State := s.setPc (s.pc + 2)

/-- The delay-timer step (R147). -/
def State.stepDelay (s : State) : State :=
  if 0 < s.dt.toNat then s.setDt (s.dt - 1) else s

/-- The sound-timer step (R148): the tone is raised if ST is still above 0 after the decrement. -/
def State.stepSound (s : State) : State :=
  if 0 < s.st.toNat then
    { s with st := s.st - 1, out := { s.out with tone := s.out.tone || decide (0 < (s.st - 1).toNat) } }
  else s

/-- The timer step: the delay timer, then the sound timer (R87). -/
def State.timerStep (s : State) : State := s.stepDelay.stepSound

/-- The word stored where the next cycle fetches it, high byte first (R50). -/
def State.placeWord (s : State) (w : Word) : State := s.storeBytes s.pc.toNat (bytesOfWord w)

/-- The random byte and the state in which the next draw is another (42_alu.md R117, 60_exceptions.md R150). A free
value: DESIGN CHOICE, log entry 2. -/
def State.draw (s : State) : Byte × State := (Config.draw s.draws, { s with draws := s.draws + 1 })

end Sys2Proof.Machine
end

