-- ==== Sys2Proof/Machine/Flags.lean ====
section
/-! DEFINITION. VF, the only flag (10_state.md R35), and the five rules of 42_alu.md and the one of 44_display.md by which it
is computed. -/

namespace Sys2Proof.Machine

/-- `VF` is `V[15]` (00_scope.md R12). -/
def regVF : Nibble := 0xF#4

/-- The byte a flag is: 1 or 0. -/
def flagByte (b : Bool) : Byte := if b then 0x01#8 else 0x00#8

/-- Carry: the exact sum exceeds 255 (R102, R112). -/
def carryFlag (a b : Byte) : Byte := flagByte (decide (255 < a.toNat + b.toNat))

/-- Not-borrow: strictly greater (R113, R115). -/
def notBorrowFlag (a b : Byte) : Byte := flagByte (decide (b.toNat < a.toNat))

/-- The bit a right shift drops: bit 0 (R114). -/
def droppedRightFlag (a : Byte) : Byte := flagByte (a.getLsbD 0)

/-- The bit a left shift drops: bit 7 (R116). -/
def droppedLeftFlag (a : Byte) : Byte := flagByte (a.getLsbD 7)

/-- `V[15] <- f`. -/
def State.writeFlag (s : State) (f : Byte) : State := s.writeV regVF f

/-- A result and then its flag: the flag is written last, so it stands where the result's register is VF (R103). -/
def State.writeResultFlag (s : State) (x : Nibble) (result flag : Byte) : State :=
  (s.writeV x result).writeFlag flag

end Sys2Proof.Machine
end

