-- ==== Sys2Proof/Machine/Operands.lean ====
section
/-! DEFINITION. The operand forms (30_encoding.md R66; 43_index_memory.md R120, R121, R124; 41_control_flow.md R101). -/

namespace Sys2Proof.Machine

/-- `zext_16(nnn)`: an address operand as it is written to pc or I (R66). -/
def zextAddr (nnn : Addr) : Word := nnn.zeroExtend 16

/-- `zext_16(v)`: a byte operand widened to 16 bits (00_scope.md R11). -/
def zextByte (b : Byte) : Word := b.zeroExtend 16

/-- The effective address of byte `k` of an access through I, computed exactly (R124). -/
def State.effAddr (s : State) (k : Nat) : Nat := s.i.toNat + k

/-- The exact sum of `Fx1E` (R119). -/
def State.indexSum (s : State) (x : Nibble) : Nat := s.i.toNat + (s.readV x).toNat

/-- The target of `Bnnn`, not reduced to 12 bits (R101). -/
def State.indexedTarget (s : State) (nnn : Addr) : Word := zextAddr nnn + zextByte (s.readV 0)

/-- The address of the glyph of a byte's low nibble (R120, R40). -/
def glyphAddr (b : Byte) : Word := BitVec.ofNat 16 (Config.fontBase + 5 * (b &&& 0x0F#8).toNat)

/-- The decimal hundreds, tens and ones of a byte (R121). -/
def decimalDigits (b : Byte) : List Byte :=
  [BitVec.ofNat 8 (b.toNat / 100), BitVec.ofNat 8 (b.toNat / 10 % 10), BitVec.ofNat 8 (b.toNat % 10)]

/-- The key index a register operand gives: the full byte (45_keys_timers.md R137). -/
def State.keyIndex (s : State) (x : Nibble) : Nat := (s.readV x).toNat

end Sys2Proof.Machine
end

