-- ==== Sys2Proof/Machine/Display.lean ====
section
/-! DEFINITION. The meanings of the display instructions (44_display.md). -/

namespace Sys2Proof.Machine

/-- `00E0`, clear display (R125). -/
def execCls (s : State) : Host.Outcome State Fault Refusal :=
  .next { s with fb := Framebuffer.cleared, out := { s.out with clearRequested := true } }

/-- What a sprite of `n` bytes at I does to the framebuffer from the origin (Vx, Vy), and its collision bit (R126). -/
def State.blitSprite (s : State) (x y n : Nibble) : Blit :=
  Blit.rows (s.readV x).toNat (s.readV y).toNat (s.readBytes (s.effAddr 0) n.toNat) (s.fb, false)

/-- The state after a blit: the framebuffer, VF the collision bit, and the framebuffer-changed signal (R126, R130). -/
def State.afterBlit (s : State) (a : Blit) : State :=
  ({ s with fb := a.1, out := { s.out with fbChanged := true } } : State).writeFlag (flagByte a.2)

/-- `Dxyn`, draw sprite (R126 to R130). -/
def execDrw (x y n : Nibble) (s : State) : Host.Outcome State Fault Refusal :=
  raiseOr (s.checkRange (s.effAddr 0) n.toNat) s (s.afterBlit (s.blitSprite x y n))

end Sys2Proof.Machine
end

