-- ==== Sys2Proof/Machine/IndexMemory.lean ====
section
/-! DEFINITION. The meanings of the instructions on I and of the memory transfers through I (43_index_memory.md). None
changes I as a side effect of an access (R124). -/

namespace Sys2Proof.Machine

/-- `Annn`, load address register (R118). -/
def execLdI (nnn : Addr) (s : State) : Host.Outcome State Fault Refusal :=
  .next (s.setI (zextAddr nnn))

/-- `Fx1E`, add register to I: the exact sum, or `OutOfBounds(IREG)` (R119). -/
def execAddI (x : Nibble) (s : State) : Host.Outcome State Fault Refusal :=
  raiseOr (s.checkIreg (s.indexSum x)) s (s.setI (BitVec.ofNat 16 (s.indexSum x)))

/-- `Fx29`, point I at a font glyph (R120). -/
def execLdF (x : Nibble) (s : State) : Host.Outcome State Fault Refusal :=
  .next (s.setI (glyphAddr (s.readV x)))

/-- `Fx33`, store decimal digits (R121). -/
def execLdB (x : Nibble) (s : State) : Host.Outcome State Fault Refusal :=
  raiseOr (s.checkRange (s.effAddr 0) 3) s (s.storeBytes (s.effAddr 0) (decimalDigits (s.readV x)))

/-- `Fx55`, store registers V0 to Vx (R122). -/
def execStMemVx (x : Nibble) (s : State) : Host.Outcome State Fault Refusal :=
  raiseOr (s.checkRange (s.effAddr 0) (x.toNat + 1)) s (s.storeBytes (s.effAddr 0) (s.readVs x))

/-- `Fx65`, load registers V0 to Vx (R123). -/
def execLdMemVx (x : Nibble) (s : State) : Host.Outcome State Fault Refusal :=
  raiseOr (s.checkRange (s.effAddr 0) (x.toNat + 1)) s (s.writeVs (s.readBytes (s.effAddr 0) (x.toNat + 1)))

end Sys2Proof.Machine
end

