-- ==== Sys2Proof/Machine/KeysTimers.lean ====
section
/-! DEFINITION. The meanings of the key and timer instructions (45_keys_timers.md). -/

namespace Sys2Proof.Machine

/-- `Ex9E`, skip if key pressed (R131, R137). -/
def execSkp (x : Nibble) (s : State) : Host.Outcome State Fault Refusal :=
  raiseOr (s.checkKey (s.keyIndex x)) s (s.skipIf (s.keyAt (s.keyIndex x)))

/-- `ExA1`, skip if key not pressed (R132, R137). -/
def execSknp (x : Nibble) (s : State) : Host.Outcome State Fault Refusal :=
  raiseOr (s.checkKey (s.keyIndex x)) s (s.skipIf (!s.keyAt (s.keyIndex x)))

/-- `Fx07`, read delay timer (R133). -/
def execLdVxDt (x : Nibble) (s : State) : Host.Outcome State Fault Refusal :=
  .next (s.writeV x s.dt)

/-- `Fx0A`, wait for a key: with none pressed, pc goes back to `ipc` and the instruction runs again (R134). -/
def execLdVxK (x : Nibble) (s : State) : Host.Outcome State Fault Refusal :=
  match s.lowestKey with
  | some k => .next (s.writeV x (BitVec.ofNat 8 k))
  | none => .next (s.setPc s.ipc)

/-- `Fx15`, set delay timer (R135). -/
def execLdDtVx (x : Nibble) (s : State) : Host.Outcome State Fault Refusal :=
  .next (s.setDt (s.readV x))

/-- `Fx18`, set sound timer (R136). -/
def execLdStVx (x : Nibble) (s : State) : Host.Outcome State Fault Refusal :=
  .next (s.setSt (s.readV x))

end Sys2Proof.Machine
end

