-- ==== Sys2Proof/Machine/Cycle.lean ====
section
/-! DEFINITION. One cycle of the engine (40_cycle_engine.md R78 to R89). -/

namespace Sys2Proof.Machine

/-- The end of a cycle that executed: the timer step, unless the execute halted the machine (R86, R87). -/
def State.endCycle (s : State) : State :=
  match s.status with
  | .running => s.timerStep
  | .halted _ => s

/-- The end of a cycle, over the outcome of its execute. -/
def endExecute : Host.Outcome State Fault Refusal → Host.Outcome State Fault Refusal
  | .next s => .next s.endCycle
  | .fault f => .fault f
  | .refused r => .refused r

/-- Decode and execute the word fetched from `ipc`, in the state after the fetch advance; an unknown opcode is reported and
executes nothing (R83 to R85). -/
def executeWord (ipc w : Word) (s : State) : Host.Outcome State Fault Refusal :=
  match decode w with
  | .instr i => endExecute (exec i s)
  | .unknownOpcode word => .next (s.reportUnknown ipc word).endCycle

/-- The cycle of a running machine (R80 to R88). -/
def runRunning (s : State) : Host.Outcome State Fault Refusal :=
  match s.clearOut.checkFetch with
  | some e => .next (s.clearOut.raise e)
  | none => executeWord s.pc s.clearOut.fetchWord s.clearOut.advance

/-- `runCycle()` (R89); on a halted machine it only reports (R79). -/
def runCycle (s : State) : Host.Outcome State Fault Refusal :=
  match s.status with
  | .running => runRunning s
  | .halted e => .next (s.reportHalted e)

end Sys2Proof.Machine
end

