-- ==== Sys2Proof/Machine/Step.lean ====
section
/-! DEFINITION. The step of the machine: one `runCycle` (40_cycle_engine.md R78), and the placing of an instruction where the
next step fetches it. -/

namespace Sys2Proof.Machine

/-- One step is one cycle. -/
def step (s : State) : Host.Outcome State Fault Refusal := runCycle s

/-- The state with an instruction, numbered as spec/opcode_table.json numbers its bits, stored at pc and pc + 1, where the
next cycle of a running machine fetches it. It stands for the host's `loadProgram`: log entry 8. -/
def State.withFetchWord (s : State) (nbits w : Nat) : State := s.placeWord (tableWord nbits w)

end Sys2Proof.Machine
end

