-- ==== Sys2Proof/Machine/HostOps.lean ====
section
/-! DEFINITION. The host's boundary operations (60_exceptions.md R151, R152; 20_memory.md R61; 70_reset_and_hazards.md R161;
10_state.md R42; 40_cycle_engine.md R88). The host calls them between cycles (R7, R160), so none is part of a step. -/

namespace Sys2Proof.Machine

/-- `BoundaryError(len)`: the error of a program too long to load (R138, R139, R142). -/
structure BoundaryError where
  len : Nat
deriving DecidableEq, Repr

/-- What `loadProgram` returns (R61): `Ok`, with the state loaded, or the error, with the state left as it is. -/
inductive LoadResult where
  | ok (s : State)
  | boundaryError (e : BoundaryError)
deriving DecidableEq, Repr

/-- The debug snapshot: "PC, I, SP, all 16 registers, and both timers" (R42, R151). -/
structure Snapshot where
  pc : Word
  i : Word
  sp : Fin 17
  v : Vector Byte 16
  dt : Byte
  st : Byte
deriving DecidableEq, Repr

/-- The software form of a cycle's result (R88). -/
inductive CycleResult where
  | ok (fbChanged clearRequested tone : Bool) (framebuffer : Framebuffer)
  | err (e : CycleError)
deriving DecidableEq, Repr

/-- The boundary operations that can change the machine (R151). -/
inductive HostCall where
  | reset
  | loadProgram (bytes : List Byte)
  | setKey (index : Nat) (pressed : Bool)
  | runCycle
deriving DecidableEq, Repr

/-- `reset()` (R161): every piece of the spec's state gets its reset value, whatever it was. The model's own count of draws
goes on, so that the draws after a reset are fresh (log entry 2). -/
def State.hostReset (s : State) : State := { State.reset with draws := s.draws }

/-- `loadProgram(bytes)` (R61): all the bytes at 0x200 up, or none. -/
def State.loadProgram (s : State) (bytes : List Byte) : LoadResult :=
  if Config.progMax < bytes.length then .boundaryError ⟨bytes.length⟩
  else .ok (s.storeBytes Config.progBase bytes)

/-- `setKey(index, pressed)` (R152): an index outside 0..15 is rejected and changes nothing. -/
def State.setKey (s : State) (index : Nat) (pressed : Bool) : State :=
  if h : index < 16 then { s with key := s.key.set index pressed } else s

/-- The snapshot, which changes nothing (R42). -/
def State.snapshot (s : State) : Snapshot := ⟨s.pc, s.i, s.sp, s.v, s.dt, s.st⟩

/-- The result of the cycle that left this state (R88). -/
def State.cycleResult (s : State) : CycleResult :=
  match s.out.err with
  | .none => .ok s.out.fbChanged s.out.clearRequested s.out.tone s.fb
  | e => .err e

/-- The numeric code of a cycle's error (R138). -/
def CycleError.code : CycleError → Nat
  | .none => 0
  | .unknownOpcode _ _ => 1
  | .fatal (.outOfBounds _ _ _) => 2
  | .fatal (.stackOverflow _) => 3
  | .fatal (.stackUnderflow _) => 4

/-- The state a load leaves: an error changes nothing (R142). -/
def State.afterLoad (s : State) : LoadResult → State
  | .ok t => t
  | .boundaryError _ => s

/-- One call of the host (R151). -/
def State.afterCall (s : State) : HostCall → Host.Outcome State Fault Refusal
  | .reset => .next s.hostReset
  | .loadProgram bytes => .next (s.afterLoad (s.loadProgram bytes))
  | .setKey index pressed => .next (s.setKey index pressed)
  | .runCycle => step s

/-- A sequence of the host's calls, one after the other (R160). -/
def State.afterCalls (s : State) : List HostCall → Host.Outcome State Fault Refusal
  | [] => .next s
  | c :: cs =>
    match s.afterCall c with
    | .next t => State.afterCalls t cs
    | .fault f => .fault f
    | .refused r => .refused r

end Sys2Proof.Machine
end

