-- ==== Sys2Proof/Safety.lean ====
section
/-! DEFINITION. The terms in which claims about the machine are stated: its invariants, what an instruction may change, and
the shapes "changes only", "raises" and "is encoded as". -/

namespace Sys2Proof.Machine

/-! ### Invariants -/

/-- Memory is in canonical form. -/
def State.memCanonical (s : State) : Prop := Memory.wf s.mem

/-- pc is at most 0x10FE and every stack slot at most 0x1000 (10_state.md R27, R30; 41_control_flow.md R93). -/
def State.pcBounded (s : State) : Prop :=
  s.pc.toNat ≤ 0x10FE ∧ ∀ j : Fin 16, s.stack[j].toNat ≤ 0x1000

/-- The run status and the output record agree: a machine halted by `e` shows the record of R79, and a running machine
shows no fatal error (R38, R79, R86). -/
def State.statusAgrees (s : State) : Prop :=
  match s.status with
  | .halted e => s.out = Output.quiet (.fatal e)
  | .running => ∀ e, s.out.err ≠ .fatal e

/-- The three invariants together. -/
def State.inv (s : State) : Prop := s.memCanonical ∧ s.pcBounded ∧ s.statusAgrees

/-! ### What changes -/

/-- The pieces of the state (10_state.md R20), and the model's count of draws. -/
inductive Part where
  | mem | v | i | pc | sp | stack | dt | st | key | fb | out | status | draws
deriving DecidableEq, Repr

/-- A piece of the state is the same in two states; memory is compared through the read of every byte. -/
def Part.same (s t : State) : Part → Prop
  | .mem => ∀ a, t.readByte a = s.readByte a
  | .v => ∀ x, t.readV x = s.readV x
  | .i => t.i = s.i
  | .pc => t.pc = s.pc
  | .sp => t.sp = s.sp
  | .stack => t.stack = s.stack
  | .dt => t.dt = s.dt
  | .st => t.st = s.st
  | .key => t.key = s.key
  | .fb => t.fb = s.fb
  | .out => t.out = s.out
  | .status => t.status = s.status
  | .draws => t.draws = s.draws

/-- Every piece of the state outside a list is unchanged. -/
def onlyChanges (ps : List Part) (s t : State) : Prop := ∀ p, p ∉ ps → Part.same s t p

/-- What an instruction may change, a raise among it (R23, R24, R29 to R34, R46, R138). -/
def mayChange : Instr → List Part
  | .cls => [.fb, .out]
  | .ret => [.pc, .sp, .status, .out]
  | .jp _ => [.pc]
  | .call _ => [.pc, .sp, .stack, .status, .out]
  | .seVxKk _ _ => [.pc]
  | .sneVxKk _ _ => [.pc]
  | .seVxVy _ _ => [.pc]
  | .sneVxVy _ _ => [.pc]
  | .ldVxKk _ _ => [.v]
  | .addVxKk _ _ => [.v]
  | .ldVxVy _ _ => [.v]
  | .orVxVy _ _ => [.v]
  | .andVxVy _ _ => [.v]
  | .xorVxVy _ _ => [.v]
  | .addVxVy _ _ => [.v]
  | .subVxVy _ _ => [.v]
  | .shrVx _ _ => [.v]
  | .subnVxVy _ _ => [.v]
  | .shlVx _ _ => [.v]
  | .ldI _ => [.i]
  | .jpV0 _ => [.pc]
  | .rnd _ _ => [.v, .draws]
  | .drw _ _ _ => [.v, .fb, .out, .status]
  | .skp _ => [.pc, .status, .out]
  | .sknp _ => [.pc, .status, .out]
  | .ldVxDt _ => [.v]
  | .ldVxK _ => [.v, .pc]
  | .ldDtVx _ => [.dt]
  | .ldStVx _ => [.st]
  | .addI _ => [.i, .status, .out]
  | .ldF _ => [.i]
  | .ldB _ => [.mem, .status, .out]
  | .stMemVx _ => [.mem, .status, .out]
  | .ldMemVx _ => [.v, .status, .out]

/-- The V registers an instruction may write: its destination, VF as a flag, or V0 to Vx (R22, R23). -/
def mayWriteV (k : Nibble) : Instr → Bool
  | .ldVxKk x _ => k == x
  | .addVxKk x _ => k == x
  | .ldVxVy x _ => k == x
  | .orVxVy x _ => k == x
  | .andVxVy x _ => k == x
  | .xorVxVy x _ => k == x
  | .addVxVy x _ => k == x || k == regVF
  | .subVxVy x _ => k == x || k == regVF
  | .shrVx x _ => k == x || k == regVF
  | .subnVxVy x _ => k == x || k == regVF
  | .shlVx x _ => k == x || k == regVF
  | .rnd x _ => k == x
  | .drw _ _ _ => k == regVF
  | .ldVxDt x => k == x
  | .ldVxK x => k == x
  | .ldMemVx x => decide (k.toNat ≤ x.toNat)
  | .cls => false
  | .ret => false
  | .jp _ => false
  | .call _ => false
  | .seVxKk _ _ => false
  | .sneVxKk _ _ => false
  | .seVxVy _ _ => false
  | .sneVxVy _ _ => false
  | .ldI _ => false
  | .jpV0 _ => false
  | .skp _ => false
  | .sknp _ => false
  | .ldDtVx _ => false
  | .ldStVx _ => false
  | .addI _ => false
  | .ldF _ => false
  | .ldB _ => false
  | .stMemVx _ => false

/-! ### Shapes of claims -/

/-- Executing the instruction raises a fatal error: the machine halts with it, reports it, and nothing else changes (R86,
R140). -/
def raises (i : Instr) (s : State) (e : FatalError) : Prop :=
  ∃ t, exec i s = .next t ∧ t.status = .halted e ∧ t.out = { s.out with err := .fatal e } ∧
    onlyChanges [.status, .out] s t

/-- The instruction's row of the opcode map, its word, and the word's decoding (R73). -/
def encodedAs (i : Instr) (value mask : Word) : Prop :=
  encode i &&& mask = value ∧ decode (encode i) = .instr i

/-- The machine is running and its next fetch reads the instruction (R81 to R83). -/
def fetches (s : State) (i : Instr) : Prop :=
  s.status = .running ∧ s.pc.toNat ≤ 0xFFE ∧
    decode (wordOfBytes (s.readByte s.pc.toNat) (s.readByte (s.pc.toNat + 1))) = .instr i

/-- The state in which a fetched instruction executes: outputs cleared, pc advanced, all else as at the start of the cycle
(R80, R82). -/
def State.fetched (s : State) : State := { s with out := Output.quiet .none, pc := s.pc + 2 }

/-- Whether the sprite of `n` bytes at I, drawn from (Vx, Vy), has a 1 bit at column `px` and row `py` (R126, R127): byte
`py - Vy` of the sprite, its leftmost bit the most significant. -/
def State.spriteCovers (s : State) (x y n : Nibble) (px py : Nat) : Bool :=
  decide ((s.readV x).toNat ≤ px ∧ px < (s.readV x).toNat + 8 ∧
    (s.readV y).toNat ≤ py ∧ py < (s.readV y).toNat + n.toNat) &&
  (s.readByte (s.i.toNat + (py - (s.readV y).toNat))).getMsbD (px - (s.readV x).toNat)

end Sys2Proof.Machine
end

