-- ==== Sys2Proof/Certificates/Slice0/Obligations.lean ====
section
/-! DEFINITION. The statements about the machine, from the spec's numbered rules. `s` is a state before and `t` the state
after; a statement about `exec` starts from the state the fetch left, pc = `ipc + 2` (40_cycle_engine.md R82). Where a
statement rests on a decision the spec marks as its own (Dn of 92_eei_decisions.md) or on an entry of the assumption log, its
docstring says so. -/

open Sys2Proof Sys2Proof.Machine

/-! ### Encoding (30_encoding.md) -/

/-- Words written out from the encodings of R73 and the worked encodings of R77 decode, through the bytes in memory order,
to the instructions they stand for, and encode back. -/
def Obligations.TableWordsDecode : Prop :=
  decodeTableWord 16 0x00E0 = some .cls ∧ decodeTableWord 16 0x00EE = some .ret ∧
  decodeTableWord 16 0x1208 = some (.jp 0x208) ∧ decodeTableWord 16 0x3342 = some (.seVxKk 3 0x42) ∧
  decodeTableWord 16 0x8014 = some (.addVxVy 0 1) ∧ decodeTableWord 16 0xA300 = some (.ldI 0x300) ∧
  decodeTableWord 16 0xD125 = some (.drw 1 2 5) ∧ decodeTableWord 16 0xE59E = some (.skp 5) ∧
  decodeTableWord 16 0xFA33 = some (.ldB 0xA) ∧ decodeTableWord 16 0xF355 = some (.stMemVx 3) ∧
  decodeTableWord 16 0x0123 = none ∧ decodeTableWord 16 0x8118 = none ∧
  encode (.addVxVy 0 1) = 0x8014 ∧ encode (.ldB 0xA) = 0xFA33 ∧ encode (.drw 1 2 5) = 0xD125

/-- Decoding the encoding of any instruction, with every operand at every value, gives the instruction back; and so does
decoding its two bytes as memory holds them. -/
def Obligations.DecodeEncodeRoundTrip : Prop :=
  ∀ i : Instr, decode (encode i) = .instr i ∧ ∀ rest, decodeBytes (bytesOfWord (encode i) ++ rest) = .word (.instr i) rest

/-- R72 (an inference the spec marks as derived: "The decoder is total and unambiguous"): a word decodes to an instruction
when exactly one row of the opcode map matches it, which is that instruction's row, and is unknown when none does. -/
def Obligations.DecoderAgreesWithOpcodeMap : Prop :=
  opcodeMap.length = 34 ∧
  ∀ w : Word,
    (∃ i, decode w = .instr i ∧ opcodeMap.filter (·.covers w) = [Instr.row i]) ∨
    (decode w = .unknownOpcode w ∧ ∀ r ∈ opcodeMap, r.covers w = false)

/-- The unknown words are exactly those R70 lists, family by family. -/
def Obligations.UnknownWords : Prop :=
  ∀ w : Word, decode w = .unknownOpcode w ↔
    (w.toNat < 0x1000 ∧ w.toNat ≠ 0x00E0 ∧ w.toNat ≠ 0x00EE) ∨
    (w.toNat / 0x1000 = 0x8 ∧ w.toNat % 0x10 ∈ [0x8, 0x9, 0xA, 0xB, 0xC, 0xD, 0xF]) ∨
    (w.toNat / 0x1000 = 0xE ∧ w.toNat % 0x100 ∉ [0x9E, 0xA1]) ∨
    (w.toNat / 0x1000 = 0xF ∧ w.toNat % 0x100 ∉ [0x07, 0x0A, 0x15, 0x18, 0x1E, 0x29, 0x33, 0x55, 0x65])

/-- R77 (an inference the spec marks as derived: "An encoder writes"): the word of every instruction, written with shifts
and ors over natural numbers. -/
def Obligations.EncoderFormats : Prop :=
  ∀ (x y n : Nibble) (kk : Byte) (nnn : Addr),
    (encode .cls).toNat = 0x00E0 ∧ (encode .ret).toNat = 0x00EE ∧
    (encode (.jp nnn)).toNat = 0x1 <<< 12 ||| nnn.toNat ∧
    (encode (.call nnn)).toNat = 0x2 <<< 12 ||| nnn.toNat ∧
    (encode (.ldI nnn)).toNat = 0xA <<< 12 ||| nnn.toNat ∧
    (encode (.jpV0 nnn)).toNat = 0xB <<< 12 ||| nnn.toNat ∧
    (encode (.seVxKk x kk)).toNat = 0x3 <<< 12 ||| x.toNat <<< 8 ||| kk.toNat ∧
    (encode (.sneVxKk x kk)).toNat = 0x4 <<< 12 ||| x.toNat <<< 8 ||| kk.toNat ∧
    (encode (.ldVxKk x kk)).toNat = 0x6 <<< 12 ||| x.toNat <<< 8 ||| kk.toNat ∧
    (encode (.addVxKk x kk)).toNat = 0x7 <<< 12 ||| x.toNat <<< 8 ||| kk.toNat ∧
    (encode (.rnd x kk)).toNat = 0xC <<< 12 ||| x.toNat <<< 8 ||| kk.toNat ∧
    (encode (.seVxVy x y)).toNat = 0x5 <<< 12 ||| x.toNat <<< 8 ||| y.toNat <<< 4 ∧
    (encode (.sneVxVy x y)).toNat = 0x9 <<< 12 ||| x.toNat <<< 8 ||| y.toNat <<< 4 ∧
    (encode (.ldVxVy x y)).toNat = 0x8 <<< 12 ||| x.toNat <<< 8 ||| y.toNat <<< 4 ||| 0x0 ∧
    (encode (.orVxVy x y)).toNat = 0x8 <<< 12 ||| x.toNat <<< 8 ||| y.toNat <<< 4 ||| 0x1 ∧
    (encode (.andVxVy x y)).toNat = 0x8 <<< 12 ||| x.toNat <<< 8 ||| y.toNat <<< 4 ||| 0x2 ∧
    (encode (.xorVxVy x y)).toNat = 0x8 <<< 12 ||| x.toNat <<< 8 ||| y.toNat <<< 4 ||| 0x3 ∧
    (encode (.addVxVy x y)).toNat = 0x8 <<< 12 ||| x.toNat <<< 8 ||| y.toNat <<< 4 ||| 0x4 ∧
    (encode (.subVxVy x y)).toNat = 0x8 <<< 12 ||| x.toNat <<< 8 ||| y.toNat <<< 4 ||| 0x5 ∧
    (encode (.shrVx x y)).toNat = 0x8 <<< 12 ||| x.toNat <<< 8 ||| y.toNat <<< 4 ||| 0x6 ∧
    (encode (.subnVxVy x y)).toNat = 0x8 <<< 12 ||| x.toNat <<< 8 ||| y.toNat <<< 4 ||| 0x7 ∧
    (encode (.shlVx x y)).toNat = 0x8 <<< 12 ||| x.toNat <<< 8 ||| y.toNat <<< 4 ||| 0xE ∧
    (encode (.drw x y n)).toNat = 0xD000 ||| x.toNat <<< 8 ||| y.toNat <<< 4 ||| n.toNat ∧
    (encode (.skp x)).toNat = 0xE <<< 12 ||| x.toNat <<< 8 ||| 0x9E ∧
    (encode (.sknp x)).toNat = 0xE <<< 12 ||| x.toNat <<< 8 ||| 0xA1 ∧
    (encode (.ldVxDt x)).toNat = 0xF <<< 12 ||| x.toNat <<< 8 ||| 0x07 ∧
    (encode (.ldVxK x)).toNat = 0xF <<< 12 ||| x.toNat <<< 8 ||| 0x0A ∧
    (encode (.ldDtVx x)).toNat = 0xF <<< 12 ||| x.toNat <<< 8 ||| 0x15 ∧
    (encode (.ldStVx x)).toNat = 0xF <<< 12 ||| x.toNat <<< 8 ||| 0x18 ∧
    (encode (.addI x)).toNat = 0xF <<< 12 ||| x.toNat <<< 8 ||| 0x1E ∧
    (encode (.ldF x)).toNat = 0xF <<< 12 ||| x.toNat <<< 8 ||| 0x29 ∧
    (encode (.ldB x)).toNat = 0xF <<< 12 ||| x.toNat <<< 8 ||| 0x33 ∧
    (encode (.stMemVx x)).toNat = 0xF <<< 12 ||| x.toNat <<< 8 ||| 0x55 ∧
    (encode (.ldMemVx x)).toNat = 0xF <<< 12 ||| x.toNat <<< 8 ||| 0x65

/-! ### The cycle (40_cycle_engine.md, 60_exceptions.md) -/

/-- R50: the word fetched is big-endian, the byte at pc its high byte. -/
def Obligations.FetchIsBigEndian : Prop :=
  ∀ s : State, s.fetchWord.toNat = (s.readByte s.pc.toNat).toNat <<< 8 ||| (s.readByte (s.pc.toNat + 1)).toNat

/-- R81: a fetch past the end is `OutOfBounds`: the machine halts with it, pc is not advanced, nothing else changes and no
timer step runs. -/
def Obligations.FetchPastEndHalts : Prop :=
  ∀ s : State, s.status = .running → 0xFFE < s.pc.toNat →
    ∃ t, step s = .next t ∧
      t.status = .halted (.outOfBounds s.pc .mem (max s.pc.toNat 0x1000)) ∧
      t.out = ⟨false, false, false, .fatal (.outOfBounds s.pc .mem (max s.pc.toNat 0x1000))⟩ ∧
      onlyChanges [.status, .out] s t

/-- A step runs the decoded instruction (R82 to R87): where the bytes at pc decode to `i`, executing `i` with the outputs
cleared and pc advanced by 2 answers a next state, and the step is that state after the timer step, or that state as it is
where the execute halted the machine. -/
def Obligations.StepRunsDecoded : Prop :=
  ∀ (s : State) (i : Instr), fetches s i →
    ∃ t, exec i s.fetched = .next t ∧ step s = .next (if t.status = .running then t.timerStep else t)

/-- An unknown word (R85, R141; the timer step on it is the spec's decision D18, "The timer step still runs"): pc keeps
`ipc + 2`, nothing is executed, the timer step runs, the error is reported and the machine goes on running. -/
def Obligations.UnknownOpcodeCycle : Prop :=
  ∀ (s : State) (w : Word), s.status = .running → s.pc.toNat ≤ 0xFFE →
    wordOfBytes (s.readByte s.pc.toNat) (s.readByte (s.pc.toNat + 1)) = w → decode w = .unknownOpcode w →
    ∃ t, step s = .next t ∧ t.status = .running ∧ t.pc = s.pc + 2 ∧
      t.out = ⟨false, false, decide (2 ≤ s.st.toNat), .unknownOpcode s.pc w⟩ ∧
      t.dt.toNat = s.dt.toNat - 1 ∧ t.st.toNat = s.st.toNat - 1 ∧
      onlyChanges [.pc, .dt, .st, .out] s t

/-- A fatal error (R86, R140; that a raise writes nothing and halts is the spec's decision D3, D7): an instruction that
halts the machine has written nothing else, and its cycle ends with pc = `ipc + 2`, the error reported, and no timer step. -/
def Obligations.FatalErrorWritesNothing : Prop :=
  (∀ (i : Instr) (s t : State) (e : FatalError), s.status = .running → exec i s = .next t → t.status = .halted e →
    t.out = { s.out with err := .fatal e } ∧ onlyChanges [.status, .out] s t) ∧
  (∀ (i : Instr) (s t : State) (e : FatalError), fetches s i → step s = .next t → t.status = .halted e →
    t.pc = s.pc + 2 ∧ t.out = ⟨false, false, false, .fatal e⟩ ∧ onlyChanges [.pc, .status, .out] s t)

/-- A halted machine (R79, R140; the spec's decision D3): a cycle reports the error and changes nothing else, and every cycle
after it changes nothing at all. That the record returned stands in `out` is the model's (log entry 5). -/
def Obligations.HaltedMachineStays : Prop :=
  (∀ (s : State) (e : FatalError), s.status = .halted e →
    ∃ t, step s = .next t ∧ t.out = ⟨false, false, false, .fatal e⟩ ∧ onlyChanges [.out] s t ∧ step t = .next t) ∧
  (∀ (s : State) (e : FatalError), s.status = .halted e → s.statusAgrees → step s = .next s)

/-- No step faults or refuses: from every state there is a next state (R144: every outcome is explicit). -/
def Obligations.StepAlwaysAnswers : Prop :=
  ∀ s : State, ∃ t, step s = .next t

/-- The delay-timer step (R147); that every cycle takes it is `TimersStepOncePerCycle`. -/
def Obligations.DelayTimerStep : Prop :=
  ∀ s : State, (0 < s.dt.toNat → s.stepDelay.dt.toNat + 1 = s.dt.toNat) ∧ (s.dt.toNat = 0 → s.stepDelay.dt = 0) ∧
    onlyChanges [.dt] s s.stepDelay

/-- The sound-timer step (R148; that the rule prevails over the source's example is the spec's decision D32, C3): the tone is
raised when ST is at least 2 before the step. -/
def Obligations.SoundTimerStep : Prop :=
  ∀ s : State, s.stepSound.st.toNat = s.st.toNat - 1 ∧
    s.stepSound.out = { s.out with tone := s.out.tone || decide (2 ≤ s.st.toNat) } ∧
    onlyChanges [.st, .out] s s.stepSound

/-- The timers step once in every cycle of a running machine that does not end halted and does not write them (R87, R147 to
R149; on an unknown word and on a key wait by the spec's decisions D17, D18). -/
def Obligations.TimersStepOncePerCycle : Prop :=
  ∀ s t : State, s.status = .running → step s = .next t → t.status = .running →
    (∀ x, ¬ fetches s (.ldDtVx x)) → (∀ x, ¬ fetches s (.ldStVx x)) →
    t.dt.toNat = s.dt.toNat - 1 ∧ t.st.toNat = s.st.toNat - 1 ∧ t.out.tone = decide (2 ≤ s.st.toNat)

/-- The cycles of the timer instructions (R133, R135, R136, R168; the spec marks the end values as derived): `Fx07` reads DT
before the timer step, and a timer written by `Fx15` or `Fx18` is stepped in the same cycle. -/
def Obligations.TimerInstructionCycles : Prop :=
  ∀ (s : State) (x : Nibble),
    (fetches s (.ldVxDt x) → ∃ t, step s = .next t ∧ t.readV x = s.dt ∧ t.dt.toNat = s.dt.toNat - 1) ∧
    (fetches s (.ldDtVx x) → ∃ t, step s = .next t ∧ t.dt.toNat = (s.readV x).toNat - 1) ∧
    (fetches s (.ldStVx x) → ∃ t, step s = .next t ∧ t.st.toNat = (s.readV x).toNat - 1 ∧
      t.out.tone = decide (2 ≤ (s.readV x).toNat))

/-- What reset leaves (R41, R161, R162; `out` and `status` are the spec's decision D3), from any state before it. The font
bytes are the parameter `FONT` (log entry 1). -/
def Obligations.ResetValues : Prop :=
  ∀ t : State, (t = State.reset ∨ ∃ s : State, t = s.hostReset) →
    (∀ a, (h : a < 80) → t.readByte a = Config.font[a]) ∧ (∀ a, 80 ≤ a → t.readByte a = 0) ∧
    (∀ x, t.readV x = 0) ∧ t.i = 0 ∧ t.pc = 0x200 ∧ t.sp = 0 ∧ (∀ j : Fin 16, t.stack[j] = 0) ∧ t.dt = 0 ∧ t.st = 0 ∧
    (∀ k : Fin 16, t.key[k] = false) ∧ (∀ px py, Framebuffer.pixel t.fb px py = false) ∧
    t.out = ⟨false, false, false, .none⟩ ∧ t.status = .running

/-! ### Invariants and whole-machine rules -/

/-- The machine after reset meets the three invariants. -/
def Obligations.ResetMeetsInvariants : Prop := State.reset.inv

/-- Every step keeps memory canonical: the form that log entry 7 states. -/
def Obligations.StepKeepsMemoryCanonical : Prop :=
  ∀ s t : State, s.memCanonical → step s = .next t → t.memCanonical

/-- Every step keeps pc at most 0x10FE and every stack slot at most 0x1000 (R27, which the spec marks as derived: "pc never
wraps"). -/
def Obligations.StepKeepsPcBounded : Prop :=
  ∀ s t : State, s.pcBounded → step s = .next t → t.pcBounded

/-- Every step keeps the run status and the output record in agreement (R38, R79, R86; the spec's decision D3). -/
def Obligations.StepKeepsStatusAgreement : Prop :=
  ∀ s t : State, s.statusAgrees → step s = .next t → t.statusAgrees

/-- Whatever the host calls, in whatever order (R151, R160), every call is answered and the invariants hold after it. -/
def Obligations.HostCallsKeepInvariants : Prop :=
  ∀ (s : State) (calls : List HostCall), s.inv → ∃ t, s.afterCalls calls = .next t ∧ t.inv

/-- The frame of every instruction: what it may change, and that it changes nothing else (R23, R24, R29 to R34, R46). -/
def Obligations.ExecChangesOnly : Prop :=
  ∀ (i : Instr) (s t : State), exec i s = .next t → onlyChanges (mayChange i) s t

/-- The register frame of every instruction: a V register is unchanged but for the destination, VF where the instruction
writes it as a flag, and V0 to Vx of `Fx65` (R22, R23). -/
def Obligations.ExecRegisterFrame : Prop :=
  ∀ (i : Instr) (s t : State) (k : Nibble), exec i s = .next t → mayWriteV k i = false → t.readV k = s.readV k

/-- The frame of a cycle: beside what its instruction may change, a cycle changes pc, the timers and the outputs. -/
def Obligations.CycleChangesOnly : Prop :=
  ∀ (i : Instr) (s t : State), fetches s i → step s = .next t →
    onlyChanges (.pc :: .dt :: .st :: .out :: mayChange i) s t

/-- No cycle changes the key latch (R33, R90). -/
def Obligations.KeyLatchConstant : Prop :=
  ∀ s t : State, step s = .next t → t.key = s.key

/-! ### Host operations -/

/-- R62: a loaded program reads back byte for byte. Memory is canonical (`StepKeepsMemoryCanonical`). -/
def Obligations.LoadedProgramReadsBack : Prop :=
  ∀ (s : State) (program : List Byte), s.memCanonical → program.length ≤ 0xE00 →
    ∃ t, s.loadProgram program = .ok t ∧ ∀ k, (h : k < program.length) → t.readByte (0x200 + k) = program[k]

/-- `loadProgram` and `setKey` beside what they load and set (R61, R142, R152; the spec's decisions D26, D27): a program too
long changes nothing, a load changes only its bytes, and a key index above 15 is rejected. -/
def Obligations.HostOperationFrames : Prop :=
  (∀ (s : State) (program : List Byte), 0xE00 < program.length →
    s.loadProgram program = .boundaryError ⟨program.length⟩ ∧ s.afterCall (.loadProgram program) = .next s) ∧
  (∀ (s : State) (program : List Byte), program.length ≤ 0xE00 →
    ∃ t, s.afterCall (.loadProgram program) = .next t ∧ onlyChanges [.mem] s t ∧
      ∀ a, a < 0x200 ∨ 0x200 + program.length ≤ a → t.readByte a = s.readByte a) ∧
  (∀ (s : State) (k : Nat) (p : Bool), k < 16 →
    ∃ t, s.afterCall (.setKey k p) = .next t ∧ t.key[k]? = some p ∧ (∀ j, j ≠ k → t.key[j]? = s.key[j]?) ∧
      onlyChanges [.key] s t) ∧
  (∀ (s : State) (k : Nat) (p : Bool), 16 ≤ k → s.afterCall (.setKey k p) = .next s)

/-! ### Control flow (41_control_flow.md) -/

/-- `00EE` with a return address on the stack pops it into pc (R93). -/
def Obligations.ReturnPops : Prop :=
  encodedAs .ret 0x00EE 0xFFFF ∧
  ∀ s : State, 0 < s.sp.val →
    ∃ t, exec .ret s = .next t ∧ t.sp.val + 1 = s.sp.val ∧ s.stack[t.sp.val]? = some t.pc ∧ onlyChanges [.pc, .sp] s t

/-- `2nnn` with a free slot pushes pc = `ipc + 2` and jumps; the other slots keep their words (R95). -/
def Obligations.CallPushes : Prop :=
  (∀ nnn, encodedAs (.call nnn) 0x2000 0xF000) ∧
  ∀ (nnn : Addr) (s : State), s.sp.val < 16 →
    ∃ t, exec (.call nnn) s = .next t ∧ t.sp.val = s.sp.val + 1 ∧ t.stack[s.sp.val]? = some s.pc ∧
      (∀ j, j ≠ s.sp.val → t.stack[j]? = s.stack[j]?) ∧ t.pc.toNat = nnn.toNat ∧ onlyChanges [.pc, .sp, .stack] s t

/-- The stack errors (R93, R95; fatal by the spec's decisions D4, D5): a return with an empty stack, a call with a full one. -/
def Obligations.StackErrors : Prop :=
  ∀ (s : State) (ipc : Word), s.pc = ipc + 2 →
    (s.sp.val = 0 → raises .ret s (.stackUnderflow ipc)) ∧
    (s.sp.val = 16 → ∀ nnn, raises (.call nnn) s (.stackOverflow ipc))

/-- R94: `1nnn` jumps to its address. -/
def Obligations.JumpSetsPc : Prop :=
  (∀ nnn, encodedAs (.jp nnn) 0x1000 0xF000) ∧
  ∀ (nnn : Addr) (s : State), ∃ t, exec (.jp nnn) s = .next t ∧ t.pc.toNat = nnn.toNat ∧ onlyChanges [.pc] s t

/-- R96, R97: the skips on an immediate. -/
def Obligations.SkipOnImmediate : Prop :=
  (∀ x kk, encodedAs (.seVxKk x kk) 0x3000 0xF000 ∧ encodedAs (.sneVxKk x kk) 0x4000 0xF000) ∧
  ∀ (x : Nibble) (kk : Byte) (s : State),
    (∃ t, exec (.seVxKk x kk) s = .next t ∧ t.pc = (if s.readV x = kk then s.pc + 2 else s.pc) ∧ onlyChanges [.pc] s t) ∧
    (∃ t, exec (.sneVxKk x kk) s = .next t ∧ t.pc = (if s.readV x = kk then s.pc else s.pc + 2) ∧ onlyChanges [.pc] s t)

/-- The skips on two registers (R98, R99), whose words may hold any low nibble (the spec's decision D10: the low nibble is
not examined). -/
def Obligations.SkipOnRegisters : Prop :=
  (∀ x y, encodedAs (.seVxVy x y) 0x5000 0xF000 ∧ encodedAs (.sneVxVy x y) 0x9000 0xF000) ∧
  (∀ (x y n : Nibble), decode (wordXYN 0x5 x y n) = .instr (.seVxVy x y) ∧
    decode (wordXYN 0x9 x y n) = .instr (.sneVxVy x y)) ∧
  ∀ (x y : Nibble) (s : State),
    (∃ t, exec (.seVxVy x y) s = .next t ∧ t.pc = (if s.readV x = s.readV y then s.pc + 2 else s.pc) ∧
      onlyChanges [.pc] s t) ∧
    (∃ t, exec (.sneVxVy x y) s = .next t ∧ t.pc = (if s.readV x = s.readV y then s.pc else s.pc + 2) ∧
      onlyChanges [.pc] s t)

/-- `Bnnn` jumps to the exact sum of its address and V0 (R101; not reduced to 12 bits by the spec's decision D8). -/
def Obligations.IndexedJump : Prop :=
  (∀ nnn, encodedAs (.jpV0 nnn) 0xB000 0xF000) ∧
  ∀ (nnn : Addr) (s : State),
    ∃ t, exec (.jpV0 nnn) s = .next t ∧ t.pc.toNat = nnn.toNat + (s.readV 0).toNat ∧ t.pc.toNat ≤ 0x10FE ∧
      onlyChanges [.pc] s t

/-! ### Register loads and ALU (42_alu.md) -/

/-- R106, R108: load immediate and copy. -/
def Obligations.LoadAndCopy : Prop :=
  (∀ x kk, encodedAs (.ldVxKk x kk) 0x6000 0xF000) ∧ (∀ x y, encodedAs (.ldVxVy x y) 0x8000 0xF00F) ∧
  ∀ (x y : Nibble) (kk : Byte) (s : State),
    (∃ t, exec (.ldVxKk x kk) s = .next t ∧ (∀ k, t.readV k = if k = x then kk else s.readV k) ∧ onlyChanges [.v] s t) ∧
    (∃ t, exec (.ldVxVy x y) s = .next t ∧ (∀ k, t.readV k = if k = x then s.readV y else s.readV k) ∧
      onlyChanges [.v] s t)

/-- R107: add immediate wraps modulo 256 and writes no flag. -/
def Obligations.AddImmediateNoFlag : Prop :=
  (∀ x kk, encodedAs (.addVxKk x kk) 0x7000 0xF000) ∧
  ∀ (x : Nibble) (kk : Byte) (s : State),
    ∃ t, exec (.addVxKk x kk) s = .next t ∧
      (∀ k, (t.readV k).toNat = if k = x then ((s.readV x).toNat + kk.toNat) % 256 else (s.readV k).toNat) ∧
      onlyChanges [.v] s t

/-- The logic operations (R109 to R111; that VF is not written is the spec's decision D14), bit by bit. -/
def Obligations.LogicOperations : Prop :=
  (∀ x y, encodedAs (.orVxVy x y) 0x8001 0xF00F ∧ encodedAs (.andVxVy x y) 0x8002 0xF00F ∧
    encodedAs (.xorVxVy x y) 0x8003 0xF00F) ∧
  ∀ (x y : Nibble) (s : State),
    (∃ t, exec (.orVxVy x y) s = .next t ∧ (∀ k, k ≠ x → t.readV k = s.readV k) ∧ onlyChanges [.v] s t ∧
      ∀ b, (t.readV x).getLsbD b = ((s.readV x).getLsbD b || (s.readV y).getLsbD b)) ∧
    (∃ t, exec (.andVxVy x y) s = .next t ∧ (∀ k, k ≠ x → t.readV k = s.readV k) ∧ onlyChanges [.v] s t ∧
      ∀ b, (t.readV x).getLsbD b = ((s.readV x).getLsbD b && (s.readV y).getLsbD b)) ∧
    (∃ t, exec (.xorVxVy x y) s = .next t ∧ (∀ k, k ≠ x → t.readV k = s.readV k) ∧ onlyChanges [.v] s t ∧
      ∀ b, (t.readV x).getLsbD b = ((s.readV x).getLsbD b != (s.readV y).getLsbD b))

/-- `8xy4` (R112; the flag written last is the spec's decision D13): the sum modulo 256 in Vx and the carry of the exact sum
in VF. -/
def Obligations.AddWithCarry : Prop :=
  (∀ x y, encodedAs (.addVxVy x y) 0x8004 0xF00F) ∧
  ∀ (x y : Nibble) (s : State),
    ∃ t, exec (.addVxVy x y) s = .next t ∧ onlyChanges [.v] s t ∧
      ∀ k, (t.readV k).toNat =
        if k = 15 then (if (s.readV x).toNat + (s.readV y).toNat > 255 then 1 else 0)
        else if k = x then ((s.readV x).toNat + (s.readV y).toNat) % 256
        else (s.readV k).toNat

/-- `8xy5` (R113; the flag written last is the spec's decision D13): the difference modulo 256 in Vx, and VF = 1 iff
Vx > Vy. -/
def Obligations.SubtractNotBorrow : Prop :=
  (∀ x y, encodedAs (.subVxVy x y) 0x8005 0xF00F) ∧
  ∀ (x y : Nibble) (s : State),
    ∃ t, exec (.subVxVy x y) s = .next t ∧ onlyChanges [.v] s t ∧
      ∀ k, (t.readV k).toNat =
        if k = 15 then (if (s.readV x).toNat > (s.readV y).toNat then 1 else 0)
        else if k = x then ((s.readV x).toNat + 256 - (s.readV y).toNat) % 256
        else (s.readV k).toNat

/-- The reverse subtract (R115; the strict comparison is the spec's decision D12, the flag written last D13). -/
def Obligations.ReverseSubtractNotBorrow : Prop :=
  (∀ x y, encodedAs (.subnVxVy x y) 0x8007 0xF00F) ∧
  ∀ (x y : Nibble) (s : State),
    ∃ t, exec (.subnVxVy x y) s = .next t ∧ onlyChanges [.v] s t ∧
      ∀ k, (t.readV k).toNat =
        if k = 15 then (if (s.readV y).toNat > (s.readV x).toNat then 1 else 0)
        else if k = x then ((s.readV y).toNat + 256 - (s.readV x).toNat) % 256
        else (s.readV k).toNat

/-- The shifts (R114, R116; that Vx is shifted in place and the y field is not used is the spec's decision D11, the flag
written last D13): the dropped bit is in VF. -/
def Obligations.ShiftsByOne : Prop :=
  (∀ x y, encodedAs (.shrVx x y) 0x8006 0xF00F ∧ encodedAs (.shlVx x y) 0x800E 0xF00F) ∧
  ∀ (x y : Nibble) (s : State),
    (∃ t, exec (.shrVx x y) s = .next t ∧ onlyChanges [.v] s t ∧
      ∀ k, (t.readV k).toNat =
        if k = 15 then (s.readV x).toNat % 2 else if k = x then (s.readV x).toNat / 2 else (s.readV k).toNat) ∧
    (∃ t, exec (.shlVx x y) s = .next t ∧ onlyChanges [.v] s t ∧
      ∀ k, (t.readV k).toNat =
        if k = 15 then (s.readV x).toNat / 128 else if k = x then 2 * (s.readV x).toNat % 256 else (s.readV k).toNat)

/-- One register as both operands (R104, which the spec marks as derived: "When x = y"): copy, OR and AND leave it, XOR and
the two subtracts clear it, the add doubles it; VF is bit 7 of the old value after the add and 0 after a subtract. -/
def Obligations.SameRegisterOperands : Prop :=
  ∀ (x : Nibble) (s t : State),
    ((exec (.ldVxVy x x) s = .next t ∨ exec (.orVxVy x x) s = .next t ∨ exec (.andVxVy x x) s = .next t) →
      ∀ k, t.readV k = s.readV k) ∧
    (exec (.xorVxVy x x) s = .next t → ∀ k, t.readV k = if k = x then 0 else s.readV k) ∧
    (exec (.addVxVy x x) s = .next t →
      t.readV 15 = (if (s.readV x).getLsbD 7 then 1 else 0) ∧
      (x ≠ 15 → (t.readV x).toNat = 2 * (s.readV x).toNat % 256)) ∧
    ((exec (.subVxVy x x) s = .next t ∨ exec (.subnVxVy x x) s = .next t) →
      t.readV 15 = 0 ∧ t.readV x = 0)

/-- `Cxkk` (R117, R150; a free byte by the spec's decision D24): the draw masked by the immediate, whatever the draw, and the
next draw another one. The draw is the model's free value, log entry 2. -/
def Obligations.RandomByteMasked : Prop :=
  (∀ x kk, encodedAs (.rnd x kk) 0xC000 0xF000) ∧
  ∀ (x : Nibble) (kk : Byte) (s : State),
    ∃ t, exec (.rnd x kk) s = .next t ∧ t.draws = s.draws + 1 ∧ (∀ k, k ≠ x → t.readV k = s.readV k) ∧
      onlyChanges [.v, .draws] s t ∧
      ∀ b, (t.readV x).getLsbD b = ((Config.draw s.draws).getLsbD b && kk.getLsbD b)

/-! ### Address register and memory transfers (43_index_memory.md) -/

/-- R118: `Annn` loads I. -/
def Obligations.LoadIndex : Prop :=
  (∀ nnn, encodedAs (.ldI nnn) 0xA000 0xF000) ∧
  ∀ (nnn : Addr) (s : State), ∃ t, exec (.ldI nnn) s = .next t ∧ t.i.toNat = nnn.toNat ∧ onlyChanges [.i] s t

/-- `Fx1E` (R119; the fault above 0xFFFF and that VF is not written are the spec's decision D6): the exact sum where it fits,
else `OutOfBounds` with the sum as its index. -/
def Obligations.AddToIndex : Prop :=
  (∀ x, encodedAs (.addI x) 0xF01E 0xF0FF) ∧
  ∀ (x : Nibble) (s : State),
    (s.i.toNat + (s.readV x).toNat ≤ 0xFFFF →
      ∃ t, exec (.addI x) s = .next t ∧ t.i.toNat = s.i.toNat + (s.readV x).toNat ∧ onlyChanges [.i] s t) ∧
    (∀ ipc, s.pc = ipc + 2 → 0xFFFF < s.i.toNat + (s.readV x).toNat →
      raises (.addI x) s (.outOfBounds ipc .ireg (s.i.toNat + (s.readV x).toNat)))

/-- R120: `Fx29` points I at the glyph of the low nibble. -/
def Obligations.GlyphAddress : Prop :=
  (∀ x, encodedAs (.ldF x) 0xF029 0xF0FF) ∧
  ∀ (x : Nibble) (s : State),
    ∃ t, exec (.ldF x) s = .next t ∧ t.i.toNat = 5 * ((s.readV x).toNat % 16) ∧ onlyChanges [.i] s t

/-- `Fx33` (R121; I unchanged by the spec's decision D15): the decimal digits at I, I + 1 and I + 2, every other byte
unchanged. Memory is canonical (`StepKeepsMemoryCanonical`). -/
def Obligations.DecimalDigitsStored : Prop :=
  (∀ x, encodedAs (.ldB x) 0xF033 0xF0FF) ∧
  ∀ (x : Nibble) (s : State), s.memCanonical → s.i.toNat + 2 ≤ 0xFFF →
    ∃ t, exec (.ldB x) s = .next t ∧
      (t.readByte (s.effAddr 0)).toNat = (s.readV x).toNat / 100 ∧
      (t.readByte (s.effAddr 1)).toNat = (s.readV x).toNat / 10 % 10 ∧
      (t.readByte (s.effAddr 2)).toNat = (s.readV x).toNat % 10 ∧
      (∀ a, a < s.effAddr 0 ∨ s.effAddr 2 < a → t.readByte a = s.readByte a) ∧ onlyChanges [.mem] s t

/-- `Fx55` (R122; I unchanged by the spec's decision D15): V0 to Vx at I up, every other byte unchanged. Memory is canonical
(`StepKeepsMemoryCanonical`). -/
def Obligations.RegistersStored : Prop :=
  (∀ x, encodedAs (.stMemVx x) 0xF055 0xF0FF) ∧
  ∀ (x : Nibble) (s : State), s.memCanonical → s.i.toNat + x.toNat ≤ 0xFFF →
    ∃ t, exec (.stMemVx x) s = .next t ∧
      (∀ k : Nibble, k.toNat ≤ x.toNat → t.readByte (s.effAddr k.toNat) = s.readV k) ∧
      (∀ a, a < s.effAddr 0 ∨ s.effAddr x.toNat < a → t.readByte a = s.readByte a) ∧ onlyChanges [.mem] s t

/-- `Fx65` (R123; I unchanged by the spec's decision D15): V0 to Vx from I up, the other registers unchanged. -/
def Obligations.RegistersLoaded : Prop :=
  (∀ x, encodedAs (.ldMemVx x) 0xF065 0xF0FF) ∧
  ∀ (x : Nibble) (s : State), s.i.toNat + x.toNat ≤ 0xFFF →
    ∃ t, exec (.ldMemVx x) s = .next t ∧
      (∀ k : Nibble, t.readV k = if k.toNat ≤ x.toNat then s.readByte (s.i.toNat + k.toNat) else s.readV k) ∧
      onlyChanges [.v] s t

/-- An access past the end of memory (R49, R55, R121 to R123, R126; that nothing is written is the spec's decision D7) is
`OutOfBounds`, whose index is the lowest address at 0x1000 or above that the access would touch (R139, D34). -/
def Obligations.AccessPastEndHalts : Prop :=
  ∀ (s : State) (ipc : Word) (x y n : Nibble), s.pc = ipc + 2 →
    (0xFFF < s.i.toNat + 2 → raises (.ldB x) s (.outOfBounds ipc .mem (max s.i.toNat 0x1000))) ∧
    (0xFFF < s.i.toNat + x.toNat → raises (.stMemVx x) s (.outOfBounds ipc .mem (max s.i.toNat 0x1000))) ∧
    (0xFFF < s.i.toNat + x.toNat → raises (.ldMemVx x) s (.outOfBounds ipc .mem (max s.i.toNat 0x1000))) ∧
    (0 < n.toNat → 0xFFF < s.i.toNat + n.toNat - 1 →
      raises (.drw x y n) s (.outOfBounds ipc .mem (max s.i.toNat 0x1000)))

/-- The round trip of R123, the source's property S9: what `Fx55` stored, `Fx65` with the same x and I restores, whatever
the registers hold by then. Memory is canonical (`StepKeepsMemoryCanonical`). -/
def Obligations.StoreLoadRoundTrip : Prop :=
  ∀ (x : Nibble) (s t u : State), s.memCanonical → s.i.toNat + x.toNat ≤ 0xFFF → exec (.stMemVx x) s = .next t →
    u.i = t.i → (∀ a, u.readByte a = t.readByte a) →
    ∃ w, exec (.ldMemVx x) u = .next w ∧ ∀ k : Nibble, k.toNat ≤ x.toNat → w.readV k = s.readV k

/-- Stores are fetched (R51, R59, which the spec marks as derived): a word whose two bytes `Fx55` stored is what a later fetch
at its address reads, the lower register its high byte. Memory is canonical (`StepKeepsMemoryCanonical`). -/
def Obligations.StoredWordIsFetched : Prop :=
  ∀ (x k j : Nibble) (s t u : State), s.memCanonical → s.i.toNat + x.toNat ≤ 0xFFF → exec (.stMemVx x) s = .next t →
    j.toNat = k.toNat + 1 → j.toNat ≤ x.toNat → u.mem = t.mem → u.pc.toNat = s.i.toNat + k.toNat →
    u.fetchWord.toNat = (s.readV k).toNat <<< 8 ||| (s.readV j).toNat

/-! ### Display (44_display.md) -/

/-- `00E0` (R125; that it does not set `fb_changed` is the spec's decision D22): every pixel off, and the clear signal. -/
def Obligations.ClearDisplay : Prop :=
  encodedAs .cls 0x00E0 0xFFFF ∧
  ∀ s : State, ∃ t, exec .cls s = .next t ∧ (∀ px py, Framebuffer.pixel t.fb px py = false) ∧
    t.out = { s.out with clearRequested := true } ∧ onlyChanges [.fb, .out] s t

/-- `Dxyn` within memory (R126 to R128; clipping and the bit order are the spec's decisions D19, D20): each pixel on the grid
is flipped exactly where the sprite has a 1 bit, and VF says whether one of those was on. -/
def Obligations.SpriteDrawn : Prop :=
  (∀ x y n, encodedAs (.drw x y n) 0xD000 0xF000) ∧
  ∀ (x y n : Nibble) (s : State), n.toNat = 0 ∨ s.i.toNat + n.toNat - 1 ≤ 0xFFF →
    ∃ t, exec (.drw x y n) s = .next t ∧
      (∀ px py, px < 64 → py < 32 →
        Framebuffer.pixel t.fb px py = (Framebuffer.pixel s.fb px py != s.spriteCovers x y n px py)) ∧
      (t.readV 15 = 0 ∨ t.readV 15 = 1) ∧
      (t.readV 15 = 1 ↔ ∃ px py, px < 64 ∧ py < 32 ∧ Framebuffer.pixel s.fb px py = true ∧
        s.spriteCovers x y n px py = true) ∧
      (∀ k, k ≠ 15 → t.readV k = s.readV k) ∧ t.out = { s.out with fbChanged := true } ∧
      onlyChanges [.v, .fb, .out] s t

/-- R129: VF is 1 exactly when some pixel that was on is off after the draw, else 0; and an identical sprite drawn a second
time at the same place restores every pixel, with VF = 1 where the first draw turned a pixel on. That condition is what the
quoted property's "since every touched pixel was previously set" needs: a first draw that only turned pixels off is followed
by a draw that turns them on, with VF = 0. -/
def Obligations.CollisionAndRedraw : Prop :=
  (∀ (x y n : Nibble) (s : State), n.toNat = 0 ∨ s.i.toNat + n.toNat - 1 ≤ 0xFFF →
    ∃ t, exec (.drw x y n) s = .next t ∧
      t.readV 15 = (if ∃ px ∈ List.range 64, ∃ py ∈ List.range 32,
        Framebuffer.pixel s.fb px py = true ∧ Framebuffer.pixel t.fb px py = false then 1 else 0)) ∧
  (∀ (x y n : Nibble) (s t u : State), n.toNat = 0 ∨ s.i.toNat + n.toNat - 1 ≤ 0xFFF → exec (.drw x y n) s = .next t →
    u.fb = t.fb → u.i = s.i → u.readV x = s.readV x → u.readV y = s.readV y → (∀ a, u.readByte a = s.readByte a) →
    ∃ w, exec (.drw x y n) u = .next w ∧ w.fb = s.fb ∧
      ((∃ px py, Framebuffer.pixel s.fb px py = false ∧ Framebuffer.pixel t.fb px py = true) → w.readV 15 = 1))

/-- `Dxy0` (R130; the spec's decision D21): with any I, nothing is drawn, VF is 0 and the framebuffer-changed signal is set. -/
def Obligations.DrawNothing : Prop :=
  ∀ (x y : Nibble) (s : State),
    ∃ t, exec (.drw x y 0) s = .next t ∧ t.fb = s.fb ∧ t.readV 15 = 0 ∧ (∀ k, k ≠ 15 → t.readV k = s.readV k) ∧
      t.out = { s.out with fbChanged := true } ∧ onlyChanges [.v, .out] s t

/-! ### Keys and timers (45_keys_timers.md) -/

/-- The key tests (R131, R132, R137; the error above 0xF is the spec's decision D16). -/
def Obligations.KeyTests : Prop :=
  (∀ x, encodedAs (.skp x) 0xE09E 0xF0FF ∧ encodedAs (.sknp x) 0xE0A1 0xF0FF) ∧
  (∀ (x : Nibble) (s : State) (pressed : Bool), s.key[(s.readV x).toNat]? = some pressed →
    (∃ t, exec (.skp x) s = .next t ∧ t.pc = (if pressed then s.pc + 2 else s.pc) ∧ onlyChanges [.pc] s t) ∧
    (∃ t, exec (.sknp x) s = .next t ∧ t.pc = (if pressed then s.pc else s.pc + 2) ∧ onlyChanges [.pc] s t)) ∧
  (∀ (x : Nibble) (s : State) (ipc : Word), s.pc = ipc + 2 → 0xF < (s.readV x).toNat →
    raises (.skp x) s (.outOfBounds ipc .key (s.readV x).toNat) ∧
    raises (.sknp x) s (.outOfBounds ipc .key (s.readV x).toNat))

/-- `Fx0A` (R134; that only pc moves while it waits is the spec's decision D17): the lowest pressed key, or another try. -/
def Obligations.KeyWait : Prop :=
  (∀ x, encodedAs (.ldVxK x) 0xF00A 0xF0FF) ∧
  (∀ (x : Nibble) (s : State) (k : Nat), s.key[k]? = some true → (∀ j, j < k → s.key[j]? = some false) →
    ∃ t, exec (.ldVxK x) s = .next t ∧ (t.readV x).toNat = k ∧ (∀ j, j ≠ x → t.readV j = s.readV j) ∧
      onlyChanges [.v] s t) ∧
  (∀ (x : Nibble) (s : State) (ipc : Word), s.pc = ipc + 2 → (∀ k : Fin 16, s.key[k] = false) →
    ∃ t, exec (.ldVxK x) s = .next t ∧ t.pc = ipc ∧ onlyChanges [.pc] s t)

/-- The moves between the timers and the registers (R133, R135, R136); their whole cycles are `TimerInstructionCycles`. -/
def Obligations.TimerMoves : Prop :=
  (∀ x, encodedAs (.ldVxDt x) 0xF007 0xF0FF ∧ encodedAs (.ldDtVx x) 0xF015 0xF0FF ∧
    encodedAs (.ldStVx x) 0xF018 0xF0FF) ∧
  ∀ (x : Nibble) (s : State),
    (∃ t, exec (.ldVxDt x) s = .next t ∧ (∀ k, t.readV k = if k = x then s.dt else s.readV k) ∧ onlyChanges [.v] s t) ∧
    (∃ t, exec (.ldDtVx x) s = .next t ∧ t.dt = s.readV x ∧ onlyChanges [.dt] s t) ∧
    (∃ t, exec (.ldStVx x) s = .next t ∧ t.st = s.readV x ∧ onlyChanges [.st] s t)
end

