-- ==== Sys2Proof/Laws/Decode.lean ====
section
/-! SUPPORT. The fields of a word written in each format: the lemmas by which the decoder reads what the encoder wrote. -/

namespace Sys2Proof

/-! ### The bits of each format -/

theorem getLsbD_wordA (f : Nibble) (nnn : Addr) (i : Nat) :
    (wordA f nnn).getLsbD i = if i < 12 then nnn.getLsbD i else f.getLsbD (i - 12) :=
  BitVec.getLsbD_append

theorem getLsbD_wordXK (f x : Nibble) (kk : Byte) (i : Nat) :
    (wordXK f x kk).getLsbD i =
      if i < 8 then kk.getLsbD i else if i < 12 then x.getLsbD (i - 8) else f.getLsbD (i - 12) := by
  refine BitVec.getLsbD_append.trans ?_
  simp only [BitVec.getLsbD_append, Nat.sub_sub]
  split_ifs <;> first | rfl | omega

theorem getLsbD_wordXYN (f x y n : Nibble) (i : Nat) :
    (wordXYN f x y n).getLsbD i =
      if i < 4 then n.getLsbD i else if i < 8 then y.getLsbD (i - 4)
      else if i < 12 then x.getLsbD (i - 8) else f.getLsbD (i - 12) := by
  refine BitVec.getLsbD_append.trans ?_
  split
  · rfl
  · refine BitVec.getLsbD_append.trans ?_
    simp only [BitVec.getLsbD_append, Nat.sub_sub]
    split_ifs <;> first | rfl | omega

/-! ### The fields of each format -/

@[simp] theorem fieldFamily_wordA (f : Nibble) (nnn : Addr) : fieldFamily (wordA f nnn) = f := by
  ext i hi
  simp [fieldFamily, getLsbD_wordA, hi, BitVec.getLsbD_eq_getElem]

@[simp] theorem fieldNnn_wordA (f : Nibble) (nnn : Addr) : fieldNnn (wordA f nnn) = nnn := by
  ext i hi
  simp [fieldNnn, getLsbD_wordA, hi, BitVec.getLsbD_eq_getElem]

@[simp] theorem fieldFamily_wordXK (f x : Nibble) (kk : Byte) : fieldFamily (wordXK f x kk) = f := by
  ext i hi
  simp [fieldFamily, getLsbD_wordXK, show ¬ 12 + i < 8 by omega, hi, BitVec.getLsbD_eq_getElem]

@[simp] theorem fieldX_wordXK (f x : Nibble) (kk : Byte) : fieldX (wordXK f x kk) = x := by
  ext i hi
  simp [fieldX, getLsbD_wordXK, show 8 + i < 12 by omega, hi, BitVec.getLsbD_eq_getElem]

@[simp] theorem fieldKk_wordXK (f x : Nibble) (kk : Byte) : fieldKk (wordXK f x kk) = kk := by
  ext i hi
  simp [fieldKk, getLsbD_wordXK, hi, BitVec.getLsbD_eq_getElem]

@[simp] theorem fieldFamily_wordXYN (f x y n : Nibble) : fieldFamily (wordXYN f x y n) = f := by
  ext i hi
  simp [fieldFamily, getLsbD_wordXYN, show ¬ 12 + i < 4 by omega, show ¬ 12 + i < 8 by omega, hi, BitVec.getLsbD_eq_getElem]

@[simp] theorem fieldX_wordXYN (f x y n : Nibble) : fieldX (wordXYN f x y n) = x := by
  ext i hi
  simp [fieldX, getLsbD_wordXYN, show ¬ 8 + i < 4 by omega, show 8 + i < 12 by omega, hi, BitVec.getLsbD_eq_getElem]

@[simp] theorem fieldY_wordXYN (f x y n : Nibble) : fieldY (wordXYN f x y n) = y := by
  ext i hi
  simp [fieldY, getLsbD_wordXYN, show 4 + i < 8 by omega, hi, BitVec.getLsbD_eq_getElem]

@[simp] theorem fieldN_wordXYN (f x y n : Nibble) : fieldN (wordXYN f x y n) = n := by
  ext i hi
  simp [fieldN, getLsbD_wordXYN, hi, BitVec.getLsbD_eq_getElem]

/-! ### The fields as numbers (R64) -/

theorem fieldFamily_toNat (w : Word) : (fieldFamily w).toNat = w.toNat / 0x1000 := by
  have := w.isLt
  simp [fieldFamily, Nat.shiftRight_eq_div_pow]
  omega

theorem fieldN_toNat (w : Word) : (fieldN w).toNat = w.toNat % 0x10 := by simp [fieldN]

theorem fieldKk_toNat (w : Word) : (fieldKk w).toNat = w.toNat % 0x100 := by simp [fieldKk]

/-! ### Rejected words -/

/-- A decoding that is an instruction, or rejects the word under its own name. -/
def namesWord (w : Word) (d : Decoded) : Prop := ∀ v, d = .unknownOpcode v → v = w

theorem namesWord_instr (w : Word) (i : Instr) : namesWord w (.instr i) := by
  intro v h
  cases h

theorem namesWord_self (w : Word) : namesWord w (.unknownOpcode w) := by
  intro v h
  injection h with h
  exact h.symm

theorem namesWord_ite {w : Word} {p : Prop} [Decidable p] {d e : Decoded} (hd : namesWord w d) (he : namesWord w e) :
    namesWord w (if p then d else e) := by
  split
  · exact hd
  · exact he

theorem decodeFamily0_names (w : Word) : namesWord w (decodeFamily0 w) := by
  unfold decodeFamily0
  repeat' first | exact namesWord_instr w _ | exact namesWord_self w | apply namesWord_ite

theorem decodeFamily8_names (w : Word) : namesWord w (decodeFamily8 w) := by
  unfold decodeFamily8
  repeat' first | exact namesWord_instr w _ | exact namesWord_self w | apply namesWord_ite

theorem decodeFamilyE_names (w : Word) : namesWord w (decodeFamilyE w) := by
  unfold decodeFamilyE
  repeat' first | exact namesWord_instr w _ | exact namesWord_self w | apply namesWord_ite

theorem decodeFamilyF_names (w : Word) : namesWord w (decodeFamilyF w) := by
  unfold decodeFamilyF
  repeat' first | exact namesWord_instr w _ | exact namesWord_self w | apply namesWord_ite

/-- A word the decoder rejects is named in the rejection (R70). -/
theorem decode_unknown {w v : Word} (h : decode w = .unknownOpcode v) : v = w := by
  revert h v
  change namesWord w (decode w)
  unfold decode
  repeat' first
    | exact namesWord_instr w _
    | exact decodeFamily0_names w
    | exact decodeFamily8_names w
    | exact decodeFamilyE_names w
    | exact decodeFamilyF_names w
    | apply namesWord_ite

/-! ### The masks of the opcode map (R73) -/

/-- The mask of a row with no sub-selector keeps the family. -/
theorem and_familyMask (w : Word) : w &&& 0xF000#16 = wordA (fieldFamily w) 0#12 := by
  refine BitVec.eq_of_getLsbD_eq fun i hi => ?_
  rw [getLsbD_wordA]
  interval_cases i <;> simp [fieldFamily]

/-- The mask of a row of family 8 keeps the family and the low nibble. -/
theorem and_aluMask (w : Word) : w &&& 0xF00F#16 = wordXYN (fieldFamily w) 0#4 0#4 (fieldN w) := by
  refine BitVec.eq_of_getLsbD_eq fun i hi => ?_
  rw [getLsbD_wordXYN]
  interval_cases i <;> simp [fieldFamily, fieldN]

/-- The mask of a row of family E or F keeps the family and the low byte. -/
theorem and_selectorMask (w : Word) : w &&& 0xF0FF#16 = wordXK (fieldFamily w) 0#4 (fieldKk w) := by
  refine BitVec.eq_of_getLsbD_eq fun i hi => ?_
  rw [getLsbD_wordXK]
  interval_cases i <;> simp [fieldFamily, fieldKk]

/-- A word's bytes, high byte first, make the word. -/
@[simp] theorem wordOfBytes_bytes (w : Word) : wordOfBytes (w.extractLsb' 8 8) (w.extractLsb' 0 8) = w := by
  refine BitVec.eq_of_getLsbD_eq fun i hi => BitVec.getLsbD_append.trans ?_
  split
  · simp [*]
  · simp [show 8 + (i - 8) = i by omega, show i - 8 < 8 by omega]

end Sys2Proof
end

