-- ==== Sys2Proof/Laws/State.lean ====
section
/-! SUPPORT. The fields of a state after each update: one lemma per field per update, true by rfl, so that no proof
unfolds a record update. -/

namespace Sys2Proof.Machine

variable (s : State)

/-! #### `State.storeBytes` -/

@[simp] theorem State.storeBytes_mem (a : Nat) (bs : List Byte) : (s.storeBytes a bs).mem = Memory.writeBytes s.mem a bs := rfl
@[simp] theorem State.storeBytes_v (a : Nat) (bs : List Byte) : (s.storeBytes a bs).v = s.v := rfl
@[simp] theorem State.storeBytes_i (a : Nat) (bs : List Byte) : (s.storeBytes a bs).i = s.i := rfl
@[simp] theorem State.storeBytes_pc (a : Nat) (bs : List Byte) : (s.storeBytes a bs).pc = s.pc := rfl
@[simp] theorem State.storeBytes_sp (a : Nat) (bs : List Byte) : (s.storeBytes a bs).sp = s.sp := rfl
@[simp] theorem State.storeBytes_stack (a : Nat) (bs : List Byte) : (s.storeBytes a bs).stack = s.stack := rfl
@[simp] theorem State.storeBytes_dt (a : Nat) (bs : List Byte) : (s.storeBytes a bs).dt = s.dt := rfl
@[simp] theorem State.storeBytes_st (a : Nat) (bs : List Byte) : (s.storeBytes a bs).st = s.st := rfl
@[simp] theorem State.storeBytes_key (a : Nat) (bs : List Byte) : (s.storeBytes a bs).key = s.key := rfl
@[simp] theorem State.storeBytes_fb (a : Nat) (bs : List Byte) : (s.storeBytes a bs).fb = s.fb := rfl
@[simp] theorem State.storeBytes_out (a : Nat) (bs : List Byte) : (s.storeBytes a bs).out = s.out := rfl
@[simp] theorem State.storeBytes_status (a : Nat) (bs : List Byte) : (s.storeBytes a bs).status = s.status := rfl
@[simp] theorem State.storeBytes_draws (a : Nat) (bs : List Byte) : (s.storeBytes a bs).draws = s.draws := rfl
@[simp] theorem State.storeBytes_readV (a : Nat) (bs : List Byte) (k : Nibble) : (s.storeBytes a bs).readV k = s.readV k := rfl

/-! #### `State.writeV` -/

@[simp] theorem State.writeV_mem (x : Nibble) (b : Byte) : (s.writeV x b).mem = s.mem := rfl
@[simp] theorem State.writeV_v (x : Nibble) (b : Byte) : (s.writeV x b).v = s.v.set x.toNat b x.isLt := rfl
@[simp] theorem State.writeV_i (x : Nibble) (b : Byte) : (s.writeV x b).i = s.i := rfl
@[simp] theorem State.writeV_pc (x : Nibble) (b : Byte) : (s.writeV x b).pc = s.pc := rfl
@[simp] theorem State.writeV_sp (x : Nibble) (b : Byte) : (s.writeV x b).sp = s.sp := rfl
@[simp] theorem State.writeV_stack (x : Nibble) (b : Byte) : (s.writeV x b).stack = s.stack := rfl
@[simp] theorem State.writeV_dt (x : Nibble) (b : Byte) : (s.writeV x b).dt = s.dt := rfl
@[simp] theorem State.writeV_st (x : Nibble) (b : Byte) : (s.writeV x b).st = s.st := rfl
@[simp] theorem State.writeV_key (x : Nibble) (b : Byte) : (s.writeV x b).key = s.key := rfl
@[simp] theorem State.writeV_fb (x : Nibble) (b : Byte) : (s.writeV x b).fb = s.fb := rfl
@[simp] theorem State.writeV_out (x : Nibble) (b : Byte) : (s.writeV x b).out = s.out := rfl
@[simp] theorem State.writeV_status (x : Nibble) (b : Byte) : (s.writeV x b).status = s.status := rfl
@[simp] theorem State.writeV_draws (x : Nibble) (b : Byte) : (s.writeV x b).draws = s.draws := rfl
@[simp] theorem State.writeV_readByte (x : Nibble) (b : Byte) (k : Nat) : (s.writeV x b).readByte k = s.readByte k := rfl

/-! #### `State.writeVs` -/

@[simp] theorem State.writeVs_mem (bs : List Byte) : (s.writeVs bs).mem = s.mem := rfl
@[simp] theorem State.writeVs_i (bs : List Byte) : (s.writeVs bs).i = s.i := rfl
@[simp] theorem State.writeVs_pc (bs : List Byte) : (s.writeVs bs).pc = s.pc := rfl
@[simp] theorem State.writeVs_sp (bs : List Byte) : (s.writeVs bs).sp = s.sp := rfl
@[simp] theorem State.writeVs_stack (bs : List Byte) : (s.writeVs bs).stack = s.stack := rfl
@[simp] theorem State.writeVs_dt (bs : List Byte) : (s.writeVs bs).dt = s.dt := rfl
@[simp] theorem State.writeVs_st (bs : List Byte) : (s.writeVs bs).st = s.st := rfl
@[simp] theorem State.writeVs_key (bs : List Byte) : (s.writeVs bs).key = s.key := rfl
@[simp] theorem State.writeVs_fb (bs : List Byte) : (s.writeVs bs).fb = s.fb := rfl
@[simp] theorem State.writeVs_out (bs : List Byte) : (s.writeVs bs).out = s.out := rfl
@[simp] theorem State.writeVs_status (bs : List Byte) : (s.writeVs bs).status = s.status := rfl
@[simp] theorem State.writeVs_draws (bs : List Byte) : (s.writeVs bs).draws = s.draws := rfl
@[simp] theorem State.writeVs_readByte (bs : List Byte) (k : Nat) : (s.writeVs bs).readByte k = s.readByte k := rfl

/-! #### `State.setI` -/

@[simp] theorem State.setI_mem (a : Word) : (s.setI a).mem = s.mem := rfl
@[simp] theorem State.setI_v (a : Word) : (s.setI a).v = s.v := rfl
@[simp] theorem State.setI_i (a : Word) : (s.setI a).i = a := rfl
@[simp] theorem State.setI_pc (a : Word) : (s.setI a).pc = s.pc := rfl
@[simp] theorem State.setI_sp (a : Word) : (s.setI a).sp = s.sp := rfl
@[simp] theorem State.setI_stack (a : Word) : (s.setI a).stack = s.stack := rfl
@[simp] theorem State.setI_dt (a : Word) : (s.setI a).dt = s.dt := rfl
@[simp] theorem State.setI_st (a : Word) : (s.setI a).st = s.st := rfl
@[simp] theorem State.setI_key (a : Word) : (s.setI a).key = s.key := rfl
@[simp] theorem State.setI_fb (a : Word) : (s.setI a).fb = s.fb := rfl
@[simp] theorem State.setI_out (a : Word) : (s.setI a).out = s.out := rfl
@[simp] theorem State.setI_status (a : Word) : (s.setI a).status = s.status := rfl
@[simp] theorem State.setI_draws (a : Word) : (s.setI a).draws = s.draws := rfl
@[simp] theorem State.setI_readV (a : Word) (k : Nibble) : (s.setI a).readV k = s.readV k := rfl
@[simp] theorem State.setI_readByte (a : Word) (k : Nat) : (s.setI a).readByte k = s.readByte k := rfl

/-! #### `State.setPc` -/

@[simp] theorem State.setPc_mem (a : Word) : (s.setPc a).mem = s.mem := rfl
@[simp] theorem State.setPc_v (a : Word) : (s.setPc a).v = s.v := rfl
@[simp] theorem State.setPc_i (a : Word) : (s.setPc a).i = s.i := rfl
@[simp] theorem State.setPc_pc (a : Word) : (s.setPc a).pc = a := rfl
@[simp] theorem State.setPc_sp (a : Word) : (s.setPc a).sp = s.sp := rfl
@[simp] theorem State.setPc_stack (a : Word) : (s.setPc a).stack = s.stack := rfl
@[simp] theorem State.setPc_dt (a : Word) : (s.setPc a).dt = s.dt := rfl
@[simp] theorem State.setPc_st (a : Word) : (s.setPc a).st = s.st := rfl
@[simp] theorem State.setPc_key (a : Word) : (s.setPc a).key = s.key := rfl
@[simp] theorem State.setPc_fb (a : Word) : (s.setPc a).fb = s.fb := rfl
@[simp] theorem State.setPc_out (a : Word) : (s.setPc a).out = s.out := rfl
@[simp] theorem State.setPc_status (a : Word) : (s.setPc a).status = s.status := rfl
@[simp] theorem State.setPc_draws (a : Word) : (s.setPc a).draws = s.draws := rfl
@[simp] theorem State.setPc_readV (a : Word) (k : Nibble) : (s.setPc a).readV k = s.readV k := rfl
@[simp] theorem State.setPc_readByte (a : Word) (k : Nat) : (s.setPc a).readByte k = s.readByte k := rfl

/-! #### `State.setDt` -/

@[simp] theorem State.setDt_mem (b : Byte) : (s.setDt b).mem = s.mem := rfl
@[simp] theorem State.setDt_v (b : Byte) : (s.setDt b).v = s.v := rfl
@[simp] theorem State.setDt_i (b : Byte) : (s.setDt b).i = s.i := rfl
@[simp] theorem State.setDt_pc (b : Byte) : (s.setDt b).pc = s.pc := rfl
@[simp] theorem State.setDt_sp (b : Byte) : (s.setDt b).sp = s.sp := rfl
@[simp] theorem State.setDt_stack (b : Byte) : (s.setDt b).stack = s.stack := rfl
@[simp] theorem State.setDt_dt (b : Byte) : (s.setDt b).dt = b := rfl
@[simp] theorem State.setDt_st (b : Byte) : (s.setDt b).st = s.st := rfl
@[simp] theorem State.setDt_key (b : Byte) : (s.setDt b).key = s.key := rfl
@[simp] theorem State.setDt_fb (b : Byte) : (s.setDt b).fb = s.fb := rfl
@[simp] theorem State.setDt_out (b : Byte) : (s.setDt b).out = s.out := rfl
@[simp] theorem State.setDt_status (b : Byte) : (s.setDt b).status = s.status := rfl
@[simp] theorem State.setDt_draws (b : Byte) : (s.setDt b).draws = s.draws := rfl
@[simp] theorem State.setDt_readV (b : Byte) (k : Nibble) : (s.setDt b).readV k = s.readV k := rfl
@[simp] theorem State.setDt_readByte (b : Byte) (k : Nat) : (s.setDt b).readByte k = s.readByte k := rfl

/-! #### `State.setSt` -/

@[simp] theorem State.setSt_mem (b : Byte) : (s.setSt b).mem = s.mem := rfl
@[simp] theorem State.setSt_v (b : Byte) : (s.setSt b).v = s.v := rfl
@[simp] theorem State.setSt_i (b : Byte) : (s.setSt b).i = s.i := rfl
@[simp] theorem State.setSt_pc (b : Byte) : (s.setSt b).pc = s.pc := rfl
@[simp] theorem State.setSt_sp (b : Byte) : (s.setSt b).sp = s.sp := rfl
@[simp] theorem State.setSt_stack (b : Byte) : (s.setSt b).stack = s.stack := rfl
@[simp] theorem State.setSt_dt (b : Byte) : (s.setSt b).dt = s.dt := rfl
@[simp] theorem State.setSt_st (b : Byte) : (s.setSt b).st = b := rfl
@[simp] theorem State.setSt_key (b : Byte) : (s.setSt b).key = s.key := rfl
@[simp] theorem State.setSt_fb (b : Byte) : (s.setSt b).fb = s.fb := rfl
@[simp] theorem State.setSt_out (b : Byte) : (s.setSt b).out = s.out := rfl
@[simp] theorem State.setSt_status (b : Byte) : (s.setSt b).status = s.status := rfl
@[simp] theorem State.setSt_draws (b : Byte) : (s.setSt b).draws = s.draws := rfl
@[simp] theorem State.setSt_readV (b : Byte) (k : Nibble) : (s.setSt b).readV k = s.readV k := rfl
@[simp] theorem State.setSt_readByte (b : Byte) (k : Nat) : (s.setSt b).readByte k = s.readByte k := rfl

/-! #### `State.advance` -/

@[simp] theorem State.advance_mem : (s.advance).mem = s.mem := rfl
@[simp] theorem State.advance_v : (s.advance).v = s.v := rfl
@[simp] theorem State.advance_i : (s.advance).i = s.i := rfl
@[simp] theorem State.advance_pc : (s.advance).pc = s.pc + 2 := rfl
@[simp] theorem State.advance_sp : (s.advance).sp = s.sp := rfl
@[simp] theorem State.advance_stack : (s.advance).stack = s.stack := rfl
@[simp] theorem State.advance_dt : (s.advance).dt = s.dt := rfl
@[simp] theorem State.advance_st : (s.advance).st = s.st := rfl
@[simp] theorem State.advance_key : (s.advance).key = s.key := rfl
@[simp] theorem State.advance_fb : (s.advance).fb = s.fb := rfl
@[simp] theorem State.advance_out : (s.advance).out = s.out := rfl
@[simp] theorem State.advance_status : (s.advance).status = s.status := rfl
@[simp] theorem State.advance_draws : (s.advance).draws = s.draws := rfl
@[simp] theorem State.advance_readV (k : Nibble) : (s.advance).readV k = s.readV k := rfl
@[simp] theorem State.advance_readByte (k : Nat) : (s.advance).readByte k = s.readByte k := rfl

/-! #### `State.clearOut` -/

@[simp] theorem State.clearOut_mem : (s.clearOut).mem = s.mem := rfl
@[simp] theorem State.clearOut_v : (s.clearOut).v = s.v := rfl
@[simp] theorem State.clearOut_i : (s.clearOut).i = s.i := rfl
@[simp] theorem State.clearOut_pc : (s.clearOut).pc = s.pc := rfl
@[simp] theorem State.clearOut_sp : (s.clearOut).sp = s.sp := rfl
@[simp] theorem State.clearOut_stack : (s.clearOut).stack = s.stack := rfl
@[simp] theorem State.clearOut_dt : (s.clearOut).dt = s.dt := rfl
@[simp] theorem State.clearOut_st : (s.clearOut).st = s.st := rfl
@[simp] theorem State.clearOut_key : (s.clearOut).key = s.key := rfl
@[simp] theorem State.clearOut_fb : (s.clearOut).fb = s.fb := rfl
@[simp] theorem State.clearOut_out : (s.clearOut).out = Output.quiet .none := rfl
@[simp] theorem State.clearOut_status : (s.clearOut).status = s.status := rfl
@[simp] theorem State.clearOut_draws : (s.clearOut).draws = s.draws := rfl
@[simp] theorem State.clearOut_readV (k : Nibble) : (s.clearOut).readV k = s.readV k := rfl
@[simp] theorem State.clearOut_readByte (k : Nat) : (s.clearOut).readByte k = s.readByte k := rfl

/-! #### `State.raise` -/

@[simp] theorem State.raise_mem (e : FatalError) : (s.raise e).mem = s.mem := rfl
@[simp] theorem State.raise_v (e : FatalError) : (s.raise e).v = s.v := rfl
@[simp] theorem State.raise_i (e : FatalError) : (s.raise e).i = s.i := rfl
@[simp] theorem State.raise_pc (e : FatalError) : (s.raise e).pc = s.pc := rfl
@[simp] theorem State.raise_sp (e : FatalError) : (s.raise e).sp = s.sp := rfl
@[simp] theorem State.raise_stack (e : FatalError) : (s.raise e).stack = s.stack := rfl
@[simp] theorem State.raise_dt (e : FatalError) : (s.raise e).dt = s.dt := rfl
@[simp] theorem State.raise_st (e : FatalError) : (s.raise e).st = s.st := rfl
@[simp] theorem State.raise_key (e : FatalError) : (s.raise e).key = s.key := rfl
@[simp] theorem State.raise_fb (e : FatalError) : (s.raise e).fb = s.fb := rfl
@[simp] theorem State.raise_out (e : FatalError) : (s.raise e).out = { s.out with err := .fatal e } := rfl
@[simp] theorem State.raise_status (e : FatalError) : (s.raise e).status = .halted e := rfl
@[simp] theorem State.raise_draws (e : FatalError) : (s.raise e).draws = s.draws := rfl
@[simp] theorem State.raise_readV (e : FatalError) (k : Nibble) : (s.raise e).readV k = s.readV k := rfl
@[simp] theorem State.raise_readByte (e : FatalError) (k : Nat) : (s.raise e).readByte k = s.readByte k := rfl

/-! #### `State.reportUnknown` -/

@[simp] theorem State.reportUnknown_mem (p w : Word) : (s.reportUnknown p w).mem = s.mem := rfl
@[simp] theorem State.reportUnknown_v (p w : Word) : (s.reportUnknown p w).v = s.v := rfl
@[simp] theorem State.reportUnknown_i (p w : Word) : (s.reportUnknown p w).i = s.i := rfl
@[simp] theorem State.reportUnknown_pc (p w : Word) : (s.reportUnknown p w).pc = s.pc := rfl
@[simp] theorem State.reportUnknown_sp (p w : Word) : (s.reportUnknown p w).sp = s.sp := rfl
@[simp] theorem State.reportUnknown_stack (p w : Word) : (s.reportUnknown p w).stack = s.stack := rfl
@[simp] theorem State.reportUnknown_dt (p w : Word) : (s.reportUnknown p w).dt = s.dt := rfl
@[simp] theorem State.reportUnknown_st (p w : Word) : (s.reportUnknown p w).st = s.st := rfl
@[simp] theorem State.reportUnknown_key (p w : Word) : (s.reportUnknown p w).key = s.key := rfl
@[simp] theorem State.reportUnknown_fb (p w : Word) : (s.reportUnknown p w).fb = s.fb := rfl
@[simp] theorem State.reportUnknown_out (p w : Word) : (s.reportUnknown p w).out = { s.out with err := .unknownOpcode p w } := rfl
@[simp] theorem State.reportUnknown_status (p w : Word) : (s.reportUnknown p w).status = s.status := rfl
@[simp] theorem State.reportUnknown_draws (p w : Word) : (s.reportUnknown p w).draws = s.draws := rfl
@[simp] theorem State.reportUnknown_readV (p w : Word) (k : Nibble) : (s.reportUnknown p w).readV k = s.readV k := rfl
@[simp] theorem State.reportUnknown_readByte (p w : Word) (k : Nat) : (s.reportUnknown p w).readByte k = s.readByte k := rfl

/-! #### `State.reportHalted` -/

@[simp] theorem State.reportHalted_mem (e : FatalError) : (s.reportHalted e).mem = s.mem := rfl
@[simp] theorem State.reportHalted_v (e : FatalError) : (s.reportHalted e).v = s.v := rfl
@[simp] theorem State.reportHalted_i (e : FatalError) : (s.reportHalted e).i = s.i := rfl
@[simp] theorem State.reportHalted_pc (e : FatalError) : (s.reportHalted e).pc = s.pc := rfl
@[simp] theorem State.reportHalted_sp (e : FatalError) : (s.reportHalted e).sp = s.sp := rfl
@[simp] theorem State.reportHalted_stack (e : FatalError) : (s.reportHalted e).stack = s.stack := rfl
@[simp] theorem State.reportHalted_dt (e : FatalError) : (s.reportHalted e).dt = s.dt := rfl
@[simp] theorem State.reportHalted_st (e : FatalError) : (s.reportHalted e).st = s.st := rfl
@[simp] theorem State.reportHalted_key (e : FatalError) : (s.reportHalted e).key = s.key := rfl
@[simp] theorem State.reportHalted_fb (e : FatalError) : (s.reportHalted e).fb = s.fb := rfl
@[simp] theorem State.reportHalted_out (e : FatalError) : (s.reportHalted e).out = Output.quiet (.fatal e) := rfl
@[simp] theorem State.reportHalted_status (e : FatalError) : (s.reportHalted e).status = s.status := rfl
@[simp] theorem State.reportHalted_draws (e : FatalError) : (s.reportHalted e).draws = s.draws := rfl
@[simp] theorem State.reportHalted_readV (e : FatalError) (k : Nibble) : (s.reportHalted e).readV k = s.readV k := rfl
@[simp] theorem State.reportHalted_readByte (e : FatalError) (k : Nat) : (s.reportHalted e).readByte k = s.readByte k := rfl

/-! #### `State.fetched` -/

@[simp] theorem State.fetched_mem : (s.fetched).mem = s.mem := rfl
@[simp] theorem State.fetched_v : (s.fetched).v = s.v := rfl
@[simp] theorem State.fetched_i : (s.fetched).i = s.i := rfl
@[simp] theorem State.fetched_pc : (s.fetched).pc = s.pc + 2 := rfl
@[simp] theorem State.fetched_sp : (s.fetched).sp = s.sp := rfl
@[simp] theorem State.fetched_stack : (s.fetched).stack = s.stack := rfl
@[simp] theorem State.fetched_dt : (s.fetched).dt = s.dt := rfl
@[simp] theorem State.fetched_st : (s.fetched).st = s.st := rfl
@[simp] theorem State.fetched_key : (s.fetched).key = s.key := rfl
@[simp] theorem State.fetched_fb : (s.fetched).fb = s.fb := rfl
@[simp] theorem State.fetched_out : (s.fetched).out = Output.quiet .none := rfl
@[simp] theorem State.fetched_status : (s.fetched).status = s.status := rfl
@[simp] theorem State.fetched_draws : (s.fetched).draws = s.draws := rfl
@[simp] theorem State.fetched_readV (k : Nibble) : (s.fetched).readV k = s.readV k := rfl
@[simp] theorem State.fetched_readByte (k : Nat) : (s.fetched).readByte k = s.readByte k := rfl

/-! #### `State.writeFlag` -/

@[simp] theorem State.writeFlag_mem (f : Byte) : (s.writeFlag f).mem = s.mem := rfl
@[simp] theorem State.writeFlag_v (f : Byte) : (s.writeFlag f).v = s.v.set regVF.toNat f regVF.isLt := rfl
@[simp] theorem State.writeFlag_i (f : Byte) : (s.writeFlag f).i = s.i := rfl
@[simp] theorem State.writeFlag_pc (f : Byte) : (s.writeFlag f).pc = s.pc := rfl
@[simp] theorem State.writeFlag_sp (f : Byte) : (s.writeFlag f).sp = s.sp := rfl
@[simp] theorem State.writeFlag_stack (f : Byte) : (s.writeFlag f).stack = s.stack := rfl
@[simp] theorem State.writeFlag_dt (f : Byte) : (s.writeFlag f).dt = s.dt := rfl
@[simp] theorem State.writeFlag_st (f : Byte) : (s.writeFlag f).st = s.st := rfl
@[simp] theorem State.writeFlag_key (f : Byte) : (s.writeFlag f).key = s.key := rfl
@[simp] theorem State.writeFlag_fb (f : Byte) : (s.writeFlag f).fb = s.fb := rfl
@[simp] theorem State.writeFlag_out (f : Byte) : (s.writeFlag f).out = s.out := rfl
@[simp] theorem State.writeFlag_status (f : Byte) : (s.writeFlag f).status = s.status := rfl
@[simp] theorem State.writeFlag_draws (f : Byte) : (s.writeFlag f).draws = s.draws := rfl
@[simp] theorem State.writeFlag_readByte (f : Byte) (k : Nat) : (s.writeFlag f).readByte k = s.readByte k := rfl

/-! #### `State.writeResultFlag` -/

@[simp] theorem State.writeResultFlag_mem (x : Nibble) (r f : Byte) : (s.writeResultFlag x r f).mem = s.mem := rfl
@[simp] theorem State.writeResultFlag_i (x : Nibble) (r f : Byte) : (s.writeResultFlag x r f).i = s.i := rfl
@[simp] theorem State.writeResultFlag_pc (x : Nibble) (r f : Byte) : (s.writeResultFlag x r f).pc = s.pc := rfl
@[simp] theorem State.writeResultFlag_sp (x : Nibble) (r f : Byte) : (s.writeResultFlag x r f).sp = s.sp := rfl
@[simp] theorem State.writeResultFlag_stack (x : Nibble) (r f : Byte) : (s.writeResultFlag x r f).stack = s.stack := rfl
@[simp] theorem State.writeResultFlag_dt (x : Nibble) (r f : Byte) : (s.writeResultFlag x r f).dt = s.dt := rfl
@[simp] theorem State.writeResultFlag_st (x : Nibble) (r f : Byte) : (s.writeResultFlag x r f).st = s.st := rfl
@[simp] theorem State.writeResultFlag_key (x : Nibble) (r f : Byte) : (s.writeResultFlag x r f).key = s.key := rfl
@[simp] theorem State.writeResultFlag_fb (x : Nibble) (r f : Byte) : (s.writeResultFlag x r f).fb = s.fb := rfl
@[simp] theorem State.writeResultFlag_out (x : Nibble) (r f : Byte) : (s.writeResultFlag x r f).out = s.out := rfl
@[simp] theorem State.writeResultFlag_status (x : Nibble) (r f : Byte) : (s.writeResultFlag x r f).status = s.status := rfl
@[simp] theorem State.writeResultFlag_draws (x : Nibble) (r f : Byte) : (s.writeResultFlag x r f).draws = s.draws := rfl
@[simp] theorem State.writeResultFlag_readByte (x : Nibble) (r f : Byte) (k : Nat) : (s.writeResultFlag x r f).readByte k = s.readByte k := rfl

/-! #### `State.afterBlit` -/

@[simp] theorem State.afterBlit_mem (a : Blit) : (s.afterBlit a).mem = s.mem := rfl
@[simp] theorem State.afterBlit_i (a : Blit) : (s.afterBlit a).i = s.i := rfl
@[simp] theorem State.afterBlit_pc (a : Blit) : (s.afterBlit a).pc = s.pc := rfl
@[simp] theorem State.afterBlit_sp (a : Blit) : (s.afterBlit a).sp = s.sp := rfl
@[simp] theorem State.afterBlit_stack (a : Blit) : (s.afterBlit a).stack = s.stack := rfl
@[simp] theorem State.afterBlit_dt (a : Blit) : (s.afterBlit a).dt = s.dt := rfl
@[simp] theorem State.afterBlit_st (a : Blit) : (s.afterBlit a).st = s.st := rfl
@[simp] theorem State.afterBlit_key (a : Blit) : (s.afterBlit a).key = s.key := rfl
@[simp] theorem State.afterBlit_fb (a : Blit) : (s.afterBlit a).fb = a.1 := rfl
@[simp] theorem State.afterBlit_out (a : Blit) : (s.afterBlit a).out = { s.out with fbChanged := true } := rfl
@[simp] theorem State.afterBlit_status (a : Blit) : (s.afterBlit a).status = s.status := rfl
@[simp] theorem State.afterBlit_draws (a : Blit) : (s.afterBlit a).draws = s.draws := rfl
@[simp] theorem State.afterBlit_readByte (a : Blit) (k : Nat) : (s.afterBlit a).readByte k = s.readByte k := rfl

end Sys2Proof.Machine
end

