-- ==== Sys2Proof/Laws/Memory.lean ====
section
/-! SUPPORT. The laws of memory: a read after a write, and that every memory operation keeps the canonical form. -/

namespace Sys2Proof.Machine

@[simp] theorem Memory.lookup_nil (a : Nat) : Memory.lookup [] a = Memory.unlisted a := rfl

theorem Memory.lookup_cons (c : Host.Cell) (m : Memory) (a : Nat) :
    Memory.lookup (c :: m) a = if c.1 = a then c.2 else Memory.lookup m a := rfl

/-- An address below every listed one is not listed. -/
theorem Memory.lookup_of_lt {m : Memory} {a : Nat} (h : ∀ c ∈ m, a < c.1) : Memory.lookup m a = Memory.unlisted a := by
  induction m with
  | nil => rfl
  | cons c m ih =>
    have hc := h c (by simp)
    rw [Memory.lookup_cons, if_neg (by omega), ih fun d hd => h d (by simp [hd])]

theorem Memory.lookup_entry_append (a : Nat) (b : Byte) (m : Memory) (k : Nat) (h : k ≠ a) :
    Memory.lookup (Memory.entry a b ++ m) k = Memory.lookup m k := by
  unfold Memory.entry
  split
  · rfl
  · simp [Memory.lookup_cons, Ne.symm h]

theorem Memory.lookup_entry_append_self (a : Nat) (b : Byte) (m : Memory) (h : ∀ c ∈ m, a < c.1) :
    Memory.lookup (Memory.entry a b ++ m) a = b := by
  unfold Memory.entry
  split
  · next hb => simpa [hb] using Memory.lookup_of_lt h
  · simp [Memory.lookup_cons]

theorem Memory.mem_entry {a : Nat} {b : Byte} {c : Host.Cell} (h : c ∈ Memory.entry a b) :
    c = (a, b) ∧ b ≠ Memory.unlisted a := by
  unfold Memory.entry at h
  split at h
  · simp at h
  · next hb => exact ⟨by simpa using h, hb⟩

/-- A write leaves every other byte alone, in any memory. -/
theorem Memory.lookup_insert_ne (m : Memory) (a : Nat) (b : Byte) (k : Nat) (h : k ≠ a) :
    Memory.lookup (Memory.insert m a b) k = Memory.lookup m k := by
  induction m with
  | nil => simpa [Memory.insert] using Memory.lookup_entry_append a b [] k h
  | cons c m ih =>
    unfold Memory.insert
    split
    · exact Memory.lookup_entry_append a b _ k h
    · split
      · next hac => rw [Memory.lookup_entry_append a b _ k h, Memory.lookup_cons, if_neg (by omega)]
      · simp only [Memory.lookup_cons, ih]

/-- A read after a write gives the byte written, in a canonical memory. -/
theorem Memory.lookup_insert_self {m : Memory} (hm : Memory.wf m) (a : Nat) (b : Byte) :
    Memory.lookup (Memory.insert m a b) a = b := by
  obtain ⟨hs, hu⟩ := hm
  induction m with
  | nil => simpa [Memory.insert] using Memory.lookup_entry_append_self a b [] (by simp)
  | cons c m ih =>
    obtain ⟨hc, hs⟩ := List.pairwise_cons.1 hs
    unfold Memory.insert
    split
    · next hlt =>
      refine Memory.lookup_entry_append_self a b _ fun d hd => ?_
      rcases List.mem_cons.1 hd with rfl | hd
      · exact hlt
      · exact hlt.trans (hc d hd)
    · split
      · next hac => exact Memory.lookup_entry_append_self a b _ fun d hd => hac ▸ hc d hd
      · next hne =>
        rw [Memory.lookup_cons, if_neg (fun h => hne h.symm)]
        exact ih hs fun d hd => hu d (by simp [hd])

/-- What a memory with one byte replaced lists. -/
theorem Memory.mem_insert {m : Memory} {a : Nat} {b : Byte} {c : Host.Cell} (h : c ∈ Memory.insert m a b) :
    (c = (a, b) ∧ b ≠ Memory.unlisted a) ∨ c ∈ m := by
  induction m with
  | nil => exact .inl (Memory.mem_entry (by simpa [Memory.insert] using h))
  | cons d m ih =>
    unfold Memory.insert at h
    split at h
    · rcases List.mem_append.1 h with h | h
      · exact .inl (Memory.mem_entry h)
      · exact .inr h
    · split at h
      · rcases List.mem_append.1 h with h | h
        · exact .inl (Memory.mem_entry h)
        · exact .inr (by simp [h])
      · rcases List.mem_cons.1 h with h | h
        · exact .inr (by simp [h])
        · exact (ih h).imp_right fun h => by simp [h]

theorem Memory.pairwise_entry_append {a : Nat} {b : Byte} {m : Memory} (hs : m.Pairwise (fun c d => c.1 < d.1))
    (h : ∀ c ∈ m, a < c.1) : (Memory.entry a b ++ m).Pairwise (fun c d => c.1 < d.1) := by
  unfold Memory.entry
  split
  · exact hs
  · exact List.pairwise_cons.2 ⟨fun d hd => h d hd, hs⟩

theorem Memory.pairwise_insert {m : Memory} (hs : m.Pairwise (fun c d => c.1 < d.1)) (a : Nat) (b : Byte) :
    (Memory.insert m a b).Pairwise (fun c d => c.1 < d.1) := by
  induction m with
  | nil => simpa [Memory.insert] using Memory.pairwise_entry_append (a := a) (b := b) hs (by simp)
  | cons c m ih =>
    obtain ⟨hc, hs'⟩ := List.pairwise_cons.1 hs
    unfold Memory.insert
    split
    · next hlt =>
      refine Memory.pairwise_entry_append hs fun d hd => ?_
      rcases List.mem_cons.1 hd with rfl | hd
      · exact hlt
      · exact hlt.trans (hc d hd)
    · next hge =>
      split
      · next hac => exact Memory.pairwise_entry_append hs' fun d hd => hac ▸ hc d hd
      · next hne =>
        refine List.pairwise_cons.2 ⟨fun d hd => ?_, ih hs'⟩
        rcases Memory.mem_insert hd with ⟨rfl, -⟩ | hd
        · exact lt_of_le_of_ne (Nat.le_of_not_lt hge) (Ne.symm hne)
        · exact hc d hd

/-- Replacing a byte below 0x1000 keeps the canonical form. -/
theorem Memory.insert_wf {m : Memory} (hm : Memory.wf m) (a : Nat) (b : Byte) (ha : a < Config.memSize) :
    Memory.wf (Memory.insert m a b) := by
  refine ⟨Memory.pairwise_insert hm.1 a b, fun c hc => ?_⟩
  rcases Memory.mem_insert hc with ⟨rfl, hb⟩ | hc
  · exact ⟨ha, hb⟩
  · exact hm.2 c hc

/-- Every write keeps the canonical form. -/
theorem Memory.write_wf {m : Memory} (hm : Memory.wf m) (a : Nat) (b : Byte) : Memory.wf (Memory.write m a b) := by
  unfold Memory.write
  split
  · exact Memory.insert_wf hm a b ‹_›
  · exact hm

theorem Memory.lookup_write_ne (m : Memory) (a : Nat) (b : Byte) (k : Nat) (h : k ≠ a) :
    Memory.lookup (Memory.write m a b) k = Memory.lookup m k := by
  unfold Memory.write
  split
  · exact Memory.lookup_insert_ne m a b k h
  · rfl

theorem Memory.lookup_write_self {m : Memory} (hm : Memory.wf m) (a : Nat) (b : Byte) (h : a < Config.memSize) :
    Memory.lookup (Memory.write m a b) a = b := by
  rw [Memory.write, if_pos h, Memory.lookup_insert_self hm]

/-- Writing consecutive bytes keeps the canonical form. -/
theorem Memory.writeBytes_wf {m : Memory} (hm : Memory.wf m) (a : Nat) (bs : List Byte) :
    Memory.wf (Memory.writeBytes m a bs) := by
  induction bs generalizing m a with
  | nil => exact hm
  | cons b bs ih => exact ih (Memory.write_wf hm a b) (a + 1)

/-- Writing consecutive bytes leaves every byte outside them alone, in any memory. -/
theorem Memory.lookup_writeBytes_outside (m : Memory) (a : Nat) (bs : List Byte) (k : Nat)
    (h : k < a ∨ a + bs.length ≤ k) : Memory.lookup (Memory.writeBytes m a bs) k = Memory.lookup m k := by
  induction bs generalizing m a with
  | nil => rfl
  | cons b bs ih =>
    simp only [List.length_cons] at h
    rw [Memory.writeBytes, ih _ _ (by omega), Memory.lookup_write_ne _ _ _ _ (by omega)]

/-- Bytes written within memory read back, in a canonical memory. -/
theorem Memory.lookup_writeBytes_inside {m : Memory} (hm : Memory.wf m) (a : Nat) (bs : List Byte)
    (hb : a + bs.length ≤ Config.memSize) (k : Nat) (h : k < bs.length) :
    Memory.lookup (Memory.writeBytes m a bs) (a + k) = bs[k] := by
  induction bs generalizing m a k with
  | nil => simp at h
  | cons b bs ih =>
    simp only [List.length_cons] at hb h
    rw [Memory.writeBytes]
    cases k with
    | zero =>
      rw [Memory.lookup_writeBytes_outside _ _ _ _ (by omega)]
      simpa using Memory.lookup_write_self hm a b (by omega)
    | succ k =>
      rw [show a + (k + 1) = a + 1 + k by omega, ih (Memory.write_wf hm a b) (a + 1) (by omega) k (by omega)]
      rfl

/-- Reset memory is canonical. -/
theorem State.reset_memory_wf : Memory.wf State.reset.mem := by simp [State.reset, Memory.wf]

theorem State.readByte_storeBytes_outside (s : State) (a : Nat) (bs : List Byte) (k : Nat)
    (h : k < a ∨ a + bs.length ≤ k) : (s.storeBytes a bs).readByte k = s.readByte k :=
  Memory.lookup_writeBytes_outside s.mem a bs k h

theorem State.readByte_storeBytes_inside {s : State} (hs : s.memCanonical) (a : Nat) (bs : List Byte)
    (hb : a + bs.length ≤ Config.memSize) (k : Nat) (h : k < bs.length) :
    (s.storeBytes a bs).readByte (a + k) = bs[k] :=
  Memory.lookup_writeBytes_inside hs a bs hb k h

end Sys2Proof.Machine
end

