-- ==== Sys2Proof/Laws/Ops.lean ====
section
/-! SUPPORT. What the shared operations do, each said once: registers, stack, keys, checks, timers. -/

namespace Sys2Proof.Machine

/-! ### Registers -/

theorem State.readV_writeV (s : State) (x : Nibble) (b : Byte) (k : Nibble) :
    (s.writeV x b).readV k = if k = x then b else s.readV k := by
  simp [State.readV, State.writeV, Vector.getElem_set, BitVec.toNat_inj, eq_comm]

/-- The flag stands in VF, the result in its register unless that is VF, every other register as before (R103). -/
theorem State.readV_writeResultFlag (s : State) (x : Nibble) (r f : Byte) (k : Nibble) :
    (s.writeResultFlag x r f).readV k = if k = 15 then f else if k = x then r else s.readV k := by
  rw [State.writeResultFlag, State.writeFlag, State.readV_writeV, State.readV_writeV]
  rfl

theorem State.readV_writeFlag (s : State) (f : Byte) (k : Nibble) :
    (s.writeFlag f).readV k = if k = 15 then f else s.readV k := State.readV_writeV s regVF f k

theorem State.readV_afterBlit (s : State) (a : Blit) (k : Nibble) :
    (s.afterBlit a).readV k = if k = 15 then flagByte a.2 else s.readV k := State.readV_writeV _ regVF _ k

theorem flagByte_toNat (b : Bool) : (flagByte b).toNat = if b then 1 else 0 := by cases b <;> rfl

/-! ### Flags -/

theorem carryFlag_toNat (a b : Byte) : (carryFlag a b).toNat = if 255 < a.toNat + b.toNat then 1 else 0 := by
  simp [carryFlag, flagByte_toNat]

theorem notBorrowFlag_toNat (a b : Byte) : (notBorrowFlag a b).toNat = if b.toNat < a.toNat then 1 else 0 := by
  simp [notBorrowFlag, flagByte_toNat]

theorem droppedRightFlag_toNat (a : Byte) : (droppedRightFlag a).toNat = a.toNat % 2 := by
  rw [droppedRightFlag, flagByte_toNat, BitVec.getLsbD, Nat.testBit_zero]
  rcases Nat.mod_two_eq_zero_or_one a.toNat with h | h <;> simp [h]

theorem droppedLeftFlag_toNat (a : Byte) : (droppedLeftFlag a).toNat = a.toNat / 128 := by
  have := a.isLt
  rw [droppedLeftFlag, flagByte_toNat, BitVec.getLsbD, Nat.testBit_eq_decide_div_mod_eq]
  split <;> simp_all <;> omega

/-! ### Several registers and bytes -/

@[simp] theorem State.length_readVs (s : State) (x : Nibble) : (s.readVs x).length = x.toNat + 1 := by
  have := x.isLt
  simp [State.readVs]
  omega

theorem State.getElem_readVs (s : State) (x k : Nibble) (h : k.toNat < (s.readVs x).length) :
    (s.readVs x)[k.toNat] = s.readV k := by
  simp [State.readVs, State.readV]

@[simp] theorem State.length_readBytes (s : State) (a n : Nat) : (s.readBytes a n).length = n := by
  simp [State.readBytes]

theorem State.getElem_readBytes (s : State) (a n k : Nat) (h : k < (s.readBytes a n).length) :
    (s.readBytes a n)[k] = s.readByte (a + k) := by
  simp [State.readBytes]

/-- Loading consecutive bytes: each register within the bytes gets its byte, the others keep theirs. -/
theorem getElem_loadRegs (v : Vector Byte 16) (k : Nat) (bs : List Byte) (j : Nat) (hj : j < 16) :
    (loadRegs v k bs)[j] = if h : k ≤ j ∧ j - k < bs.length then bs[j - k] else v[j] := by
  induction bs generalizing v k with
  | nil => simp [loadRegs]
  | cons b bs ih =>
    rw [loadRegs, ih, Vector.getElem_setIfInBounds]
    by_cases hkj : k ≤ j
    · obtain ⟨d, rfl⟩ := Nat.exists_eq_add_of_le hkj
      cases d with
      | zero => simp
      | succ d => simp [show k + (d + 1) - (k + 1) = d by omega, show k + 1 ≤ k + (d + 1) by omega]
    · simp [hkj, show ¬ k + 1 ≤ j by omega, show k ≠ j by omega]

theorem State.readV_writeVs (s : State) (bs : List Byte) (k : Nibble) :
    (s.writeVs bs).readV k = if h : k.toNat < bs.length then bs[k.toNat] else s.readV k := by
  simp [State.readV, State.writeVs, getElem_loadRegs]

/-! ### Call stack -/

theorem State.push_eq (s : State) (w : Word) (h : s.sp.val < 16) :
    s.push w = some { s with stack := s.stack.set s.sp.val w, sp := ⟨s.sp.val + 1, by omega⟩ } := dif_pos h

theorem State.push_full (s : State) (w : Word) (h : s.sp.val = 16) : s.push w = none := dif_neg (by omega)

theorem State.pop_eq (s : State) (h : 0 < s.sp.val) :
    s.pop = some (s.stack[s.sp.val - 1], { s with sp := ⟨s.sp.val - 1, by omega⟩ }) := dif_pos h

theorem State.pop_empty (s : State) (h : s.sp.val = 0) : s.pop = none := dif_neg (by omega)

/-- A call either pushes or finds the stack full. -/
theorem execCall_cases (nnn : Addr) (s : State) :
    (∃ h : s.sp.val < 16, execCall nnn s = .next { s with
      stack := s.stack.set s.sp.val s.pc, sp := ⟨s.sp.val + 1, by omega⟩, pc := zextAddr nnn }) ∨
    (s.sp.val = 16 ∧ execCall nnn s = .next (s.raise (.stackOverflow s.ipc))) := by
  by_cases h : s.sp.val < 16
  · exact .inl ⟨h, by rw [execCall, State.push_eq s _ h]; rfl⟩
  · have h16 : s.sp.val = 16 := by omega
    exact .inr ⟨h16, by rw [execCall, State.push_full s _ h16]⟩

/-- A return either pops or finds the stack empty. -/
theorem execRet_cases (s : State) :
    (∃ h : 0 < s.sp.val, execRet s = .next { s with
      sp := ⟨s.sp.val - 1, by omega⟩, pc := s.stack[s.sp.val - 1] }) ∨
    (s.sp.val = 0 ∧ execRet s = .next (s.raise (.stackUnderflow s.ipc))) := by
  by_cases h : 0 < s.sp.val
  · exact .inl ⟨h, by rw [execRet, State.pop_eq s h]; rfl⟩
  · have h0 : s.sp.val = 0 := by omega
    exact .inr ⟨h0, by rw [execRet, State.pop_empty s h0]⟩

/-! ### Keys -/

theorem State.keyAt_of_getElem? {s : State} {k : Nat} {b : Bool} (h : s.key[k]? = some b) : s.keyAt k = b := by
  obtain ⟨hk, rfl⟩ := Vector.getElem?_eq_some_iff.1 h
  have : k < s.key.toList.length := by simpa using hk
  simp [State.keyAt, List.getD_eq_getElem?_getD, List.getElem?_eq_getElem this]

/-- The lowest pressed key is the one with no pressed key below it. -/
theorem State.lowestKey_eq {s : State} {k : Nat} (hk : k < 16) (h : s.keyAt k = true)
    (hlow : ∀ j, j < k → s.keyAt j = false) : s.lowestKey = some k := by
  rw [State.lowestKey, List.find?_range_eq_some]
  exact ⟨h, by simpa [Config.numKeys] using hk, by simpa using hlow⟩

theorem State.lowestKey_none {s : State} (h : ∀ j, j < 16 → s.keyAt j = false) : s.lowestKey = none := by
  rw [State.lowestKey, List.find?_range_eq_none]
  simpa [Config.numKeys] using h

/-- A key found is one of the sixteen. -/
theorem State.lowestKey_lt {s : State} {k : Nat} (h : s.lowestKey = some k) : k < 16 :=
  List.mem_range.1 (List.mem_of_find?_eq_some h)

/-- `Fx0A` takes the lowest pressed key or puts pc back (R134). -/
theorem execLdVxK_cases (x : Nibble) (s : State) :
    (∃ k, s.lowestKey = some k ∧ execLdVxK x s = .next (s.writeV x (BitVec.ofNat 8 k))) ∨
    (s.lowestKey = none ∧ execLdVxK x s = .next (s.setPc s.ipc)) := by
  unfold execLdVxK
  cases h : s.lowestKey with
  | some k => exact .inl ⟨k, rfl, rfl⟩
  | none => exact .inr ⟨rfl, rfl⟩

/-! ### Checks and raises -/

/-- After the fetch advance, the instruction address is the one fetched from. -/
theorem State.ipc_of_pc {s : State} {ipc : Word} (h : s.pc = ipc + 2) : s.ipc = ipc := by simp [State.ipc, h]

theorem raiseOr_none {c : Option FatalError} (h : c = none) (s t : State) : raiseOr c s t = .next t := by rw [h]; rfl

theorem raiseOr_some {c : Option FatalError} {e : FatalError} (h : c = some e) (s t : State) :
    raiseOr c s t = .next (s.raise e) := by rw [h]; rfl

/-- An instruction with a check raises or has its effect. -/
theorem raiseOr_cases {c : Option FatalError} {s t u : State} (h : raiseOr c s t = .next u) :
    (∃ e, c = some e ∧ u = s.raise e) ∨ (c = none ∧ u = t) := by
  cases c with
  | none => exact .inr ⟨rfl, by injection h with h; exact h.symm⟩
  | some e => exact .inl ⟨e, rfl, by injection h with h; exact h.symm⟩

theorem State.checkRange_none {s : State} {a n : Nat} (h : n = 0 ∨ a + n - 1 ≤ 0xFFF) : s.checkRange a n = none := by
  rw [State.checkRange, if_neg]
  simp only [Config.memSize]
  omega

theorem State.checkRange_some {s : State} {a n : Nat} (hn : 0 < n) (h : 0xFFF < a + n - 1) :
    s.checkRange a n = some (.outOfBounds s.ipc .mem (max a 0x1000)) :=
  if_pos ⟨hn, by simp only [Config.memSize]; omega⟩

theorem State.checkIreg_none {s : State} {sum : Nat} (h : sum ≤ 0xFFFF) : s.checkIreg sum = none := if_neg (by omega)

theorem State.checkIreg_some {s : State} {sum : Nat} (h : 0xFFFF < sum) :
    s.checkIreg sum = some (.outOfBounds s.ipc .ireg sum) := if_pos h

theorem State.checkKey_none {s : State} {k : Nat} (h : k ≤ 0xF) : s.checkKey k = none := if_neg (by omega)

theorem State.checkKey_some {s : State} {k : Nat} (h : 0xF < k) :
    s.checkKey k = some (.outOfBounds s.ipc .key k) := if_pos h

/-- A skip changes pc alone. -/
theorem State.skipIf_eq (s : State) (c : Bool) :
    s.skipIf c = s.setPc (if c then s.pc + 2 else s.pc) := by cases c <;> rfl

/-! ### Timers -/

theorem State.stepDelay_eq (s : State) : s.stepDelay = s.setDt (BitVec.ofNat 8 (s.dt.toNat - 1)) := by
  unfold State.stepDelay
  split
  · congr 1
    apply BitVec.eq_of_toNat_eq
    simp
    omega
  · have h : s.dt = 0#8 := BitVec.eq_of_toNat_eq (by simp; omega)
    cases s
    simp_all [State.setDt]

theorem State.stepSound_eq (s : State) :
    s.stepSound = { s with
      st := BitVec.ofNat 8 (s.st.toNat - 1),
      out := { s.out with tone := s.out.tone || decide (2 ≤ s.st.toNat) } } := by
  unfold State.stepSound
  split
  · next h =>
    have h1 : s.st - 1 = BitVec.ofNat 8 (s.st.toNat - 1) := BitVec.eq_of_toNat_eq (by simp; omega)
    have h2 : (0 < (s.st - 1).toNat) = (2 ≤ s.st.toNat) := by rw [h1]; simp; omega
    simp only [h1] at h2 ⊢
    simp only [h2]
  · next h =>
    have h0 : s.st = 0#8 := BitVec.eq_of_toNat_eq (by simp; omega)
    cases s
    simp_all

/-- The timer step: each timer one less, not below 0, and the tone raised where ST was at least 2 (R147, R148). -/
theorem State.timerStep_eq (s : State) :
    s.timerStep = { s with
      dt := BitVec.ofNat 8 (s.dt.toNat - 1),
      st := BitVec.ofNat 8 (s.st.toNat - 1),
      out := { s.out with tone := s.out.tone || decide (2 ≤ s.st.toNat) } } := by
  rw [State.timerStep, State.stepDelay_eq, State.stepSound_eq]
  rfl

end Sys2Proof.Machine
end

