-- ==== Sys2Proof/Laws/Display.lean ====
section
/-! SUPPORT. What the blit does, pixel by pixel, said once for a dot, a row of dots and the rows of a sprite. -/

namespace Sys2Proof.Machine

@[simp] theorem Framebuffer.pixel_cleared (px py : Nat) : Framebuffer.pixel Framebuffer.cleared px py = false := by
  simp [Framebuffer.pixel, Framebuffer.cleared]

theorem Framebuffer.pixel_outside {fb : Framebuffer} {px py : Nat} (h : ¬ (px < 64 ∧ py < 32)) :
    Framebuffer.pixel fb px py = false := dif_neg h

/-- Framebuffers with the same pixels are the same. -/
theorem Framebuffer.ext_pixel {f g : Framebuffer}
    (h : ∀ px py, px < 64 → py < 32 → Framebuffer.pixel f px py = Framebuffer.pixel g px py) : f = g := by
  refine Vector.ext fun y hy => Vector.ext fun x hx => ?_
  simpa [Framebuffer.pixel, hx, hy] using h x y hx hy

/-- A toggle flips its pixel, on the grid, and no other. -/
theorem Framebuffer.pixel_toggle (fb : Framebuffer) (px py qx qy : Nat) :
    Framebuffer.pixel (Framebuffer.toggle fb px py) qx qy =
      (Framebuffer.pixel fb qx qy != decide (px < 64 ∧ py < 32 ∧ qx = px ∧ qy = py)) := by
  unfold Framebuffer.toggle
  by_cases h : px < 64 ∧ py < 32
  · rw [dif_pos h]
    by_cases hq : qx < 64 ∧ qy < 32
    · simp only [Framebuffer.pixel, hq, and_self, dite_true, Vector.getElem_set, h.1, h.2, true_and]
      by_cases hy : py = qy
      · subst hy
        by_cases hx : px = qx
        · simp [hx]
        · simp [hx, Ne.symm hx]
      · simp [hy, Ne.symm hy]
    · rw [Framebuffer.pixel_outside hq, Framebuffer.pixel_outside hq]
      have : ¬ (px < 64 ∧ py < 32 ∧ qx = px ∧ qy = py) := by omega
      simp [this]
  · rw [dif_neg h]
    have : ¬ (px < 64 ∧ py < 32 ∧ qx = px ∧ qy = py) := by omega
    simp [this]

/-- A dot on the grid flips its pixel; a dot off the grid changes nothing. -/
theorem Blit.plot_pixel (px py : Nat) (a : Blit) (qx qy : Nat) :
    Framebuffer.pixel (Blit.plot px py a).1 qx qy =
      (Framebuffer.pixel a.1 qx qy != decide (px < 64 ∧ py < 32 ∧ qx = px ∧ qy = py)) := by
  unfold Blit.plot
  by_cases h : px < Config.fbWidth ∧ py < Config.fbHeight
  · rw [if_pos h]
    exact Framebuffer.pixel_toggle a.1 px py qx qy
  · rw [if_neg h]
    have : ¬ (px < 64 ∧ py < 32 ∧ qx = px ∧ qy = py) := fun ⟨hx, hy, _⟩ => h ⟨hx, hy⟩
    simp [this]

/-- A dot collides with the pixel it lies on. -/
theorem Blit.plot_collision (px py : Nat) (a : Blit) :
    (Blit.plot px py a).2 = (a.2 || Framebuffer.pixel a.1 px py) := by
  unfold Blit.plot
  split
  · rfl
  · next h => rw [Framebuffer.pixel_outside (fun hh => h hh), Bool.or_false]

/-- The first `m` dots of a row. -/
def Blit.dots (ox py : Nat) (row : Byte) (m : Nat) (a : Blit) : Blit :=
  (List.range m).foldl (fun a b => if spriteBit row b then Blit.plot (ox + b) py a else a) a

theorem Blit.dots_succ (ox py : Nat) (row : Byte) (m : Nat) (a : Blit) :
    Blit.dots ox py row (m + 1) a =
      if spriteBit row m then Blit.plot (ox + m) py (Blit.dots ox py row m a) else Blit.dots ox py row m a := by
  simp [Blit.dots, List.range_succ]

/-- Dots flip the grid's pixels under their 1 bits. -/
theorem Blit.dots_pixel (ox py : Nat) (row : Byte) (m : Nat) (a : Blit) (qx qy : Nat) (hq : qx < 64 ∧ qy < 32) :
    Framebuffer.pixel (Blit.dots ox py row m a).1 qx qy =
      (Framebuffer.pixel a.1 qx qy !=
        (decide (qy = py ∧ ox ≤ qx ∧ qx < ox + m) && spriteBit row (qx - ox))) := by
  induction m with
  | zero => simp [Blit.dots, show ¬ (qy = py ∧ ox ≤ qx ∧ qx < ox) by omega]
  | succ m ih =>
    rw [Blit.dots_succ]
    by_cases hx : qx = ox + m
    · subst hx
      have h1 : ¬ (qy = py ∧ ox ≤ ox + m ∧ ox + m < ox + m) := by omega
      by_cases hy : qy = py
      · subst hy
        cases hb : spriteBit row m <;> simp [ih, Blit.plot_pixel, hb, hq]
      · cases hb : spriteBit row m <;> simp [ih, Blit.plot_pixel, hy]
    · have h1 : (qy = py ∧ ox ≤ qx ∧ qx < ox + (m + 1)) ↔ (qy = py ∧ ox ≤ qx ∧ qx < ox + m) := by omega
      have h2 : ¬ (ox + m < 64 ∧ py < 32 ∧ qx = ox + m ∧ qy = py) := by omega
      cases hb : spriteBit row m <;> simp [ih, Blit.plot_pixel, h1, h2]

/-- Dots collide when one of their 1 bits lies on a pixel that is on. -/
theorem Blit.dots_collision (ox py : Nat) (row : Byte) (m : Nat) (a : Blit) :
    (Blit.dots ox py row m a).2 = true ↔
      a.2 = true ∨ ∃ b < m, spriteBit row b = true ∧ Framebuffer.pixel a.1 (ox + b) py = true := by
  induction m with
  | zero => simp [Blit.dots]
  | succ m ih =>
    have hpix : Framebuffer.pixel (Blit.dots ox py row m a).1 (ox + m) py = Framebuffer.pixel a.1 (ox + m) py := by
      by_cases hq : ox + m < 64 ∧ py < 32
      · rw [Blit.dots_pixel _ _ _ _ _ _ _ hq]
        simp
      · rw [Framebuffer.pixel_outside hq, Framebuffer.pixel_outside hq]
    rw [Blit.dots_succ]
    constructor
    · intro h
      cases hb : spriteBit row m
      · rw [hb] at h
        exact (ih.1 h).imp_right fun ⟨b, hb, h⟩ => ⟨b, by omega, h⟩
      · rw [if_pos hb, Blit.plot_collision, Bool.or_eq_true, hpix] at h
        rcases h with h | h
        · exact (ih.1 h).imp_right fun ⟨b, hb, h⟩ => ⟨b, by omega, h⟩
        · exact .inr ⟨m, by omega, hb, h⟩
    · intro h
      have hrest : (a.2 = true ∨ ∃ b < m, spriteBit row b = true ∧ Framebuffer.pixel a.1 (ox + b) py = true) ∨
          (spriteBit row m = true ∧ Framebuffer.pixel a.1 (ox + m) py = true) := by
        rcases h with h | ⟨b, hb, h⟩
        · exact .inl (.inl h)
        · rcases Nat.lt_succ_iff_lt_or_eq.1 hb with hb | rfl
          · exact .inl (.inr ⟨b, hb, h⟩)
          · exact .inr h
      rcases hrest with h | ⟨hb, h⟩
      · split
        · rw [Blit.plot_collision, ih.2 h, Bool.true_or]
        · exact ih.2 h
      · rw [if_pos hb, Blit.plot_collision, hpix, h, Bool.or_true]

theorem Blit.row_eq (ox py : Nat) (row : Byte) (a : Blit) : Blit.row ox py row a = Blit.dots ox py row 8 a := rfl

/-- Whether the rows of a sprite drawn from an origin have a 1 bit at a column and a row. -/
def rowsCover (ox oy : Nat) (rows : List Byte) (qx qy : Nat) : Bool :=
  decide (ox ≤ qx ∧ qx < ox + 8 ∧ oy ≤ qy ∧ qy < oy + rows.length) && spriteBit (rows.getD (qy - oy) 0) (qx - ox)

theorem rowsCover_nil (ox oy qx qy : Nat) : rowsCover ox oy [] qx qy = false := by
  simp [rowsCover, show ¬ (ox ≤ qx ∧ qx < ox + 8 ∧ oy ≤ qy ∧ qy < oy) by omega]

/-- The first row of a sprite covers its own row of pixels, the others the rows below. -/
theorem rowsCover_cons (ox oy : Nat) (row : Byte) (rest : List Byte) (qx qy : Nat) :
    rowsCover ox oy (row :: rest) qx qy =
      ((decide (qy = oy ∧ ox ≤ qx ∧ qx < ox + 8) && spriteBit row (qx - ox)) || rowsCover ox (oy + 1) rest qx qy) := by
  unfold rowsCover
  by_cases hy : qy = oy
  · subst hy
    simp
  · by_cases hlt : qy < oy
    · simp [hy, show ¬ oy ≤ qy by omega, show ¬ oy + 1 ≤ qy by omega]
    · rw [show qy - oy = qy - (oy + 1) + 1 by omega]
      simp [hy, show oy ≤ qy by omega, show oy + 1 ≤ qy by omega,
        show qy < oy + (rest.length + 1) ↔ qy < oy + 1 + rest.length by omega]

/-- The first row does not cover the rows below it. -/
theorem rowsCover_above (ox oy : Nat) (rest : List Byte) (qx qy : Nat) (h : qy ≤ oy) :
    rowsCover ox (oy + 1) rest qx qy = false := by
  simp [rowsCover, show ¬ oy + 1 ≤ qy by omega]

/-- The blit flips exactly the grid's pixels under the sprite's 1 bits. -/
theorem Blit.rows_pixel (ox oy : Nat) (rows : List Byte) (a : Blit) (qx qy : Nat) (hq : qx < 64 ∧ qy < 32) :
    Framebuffer.pixel (Blit.rows ox oy rows a).1 qx qy =
      (Framebuffer.pixel a.1 qx qy != rowsCover ox oy rows qx qy) := by
  induction rows generalizing oy a with
  | nil => simp [Blit.rows, rowsCover_nil]
  | cons row rest ih =>
    rw [Blit.rows, ih, Blit.row_eq, Blit.dots_pixel _ _ _ _ _ _ _ hq, rowsCover_cons]
    by_cases hy : qy = oy
    · rw [rowsCover_above ox oy rest qx qy (by omega)]
      simp
    · simp [hy]

/-- The blit collides when one of the sprite's 1 bits lies on a pixel that is on. -/
theorem Blit.rows_collision (ox oy : Nat) (rows : List Byte) (a : Blit) :
    (Blit.rows ox oy rows a).2 = true ↔
      a.2 = true ∨ ∃ qx qy, qx < 64 ∧ qy < 32 ∧ Framebuffer.pixel a.1 qx qy = true ∧ rowsCover ox oy rows qx qy = true := by
  induction rows generalizing oy a with
  | nil => simp [Blit.rows, rowsCover_nil]
  | cons row rest ih =>
    rw [Blit.rows, ih, Blit.row_eq, Blit.dots_collision, or_assoc]
    refine or_congr_right ⟨?_, ?_⟩
    · rintro (⟨b, hb, hbit, hon⟩ | ⟨qx, qy, hx, hy, hon, hcov⟩)
      · have hq : ox + b < 64 ∧ oy < 32 := by
          by_contra hq
          rw [Framebuffer.pixel_outside hq] at hon
          exact absurd hon (by decide)
        exact ⟨ox + b, oy, hq.1, hq.2, hon, by simp [rowsCover_cons, hb, hbit]⟩
      · have hlt : oy < qy := by
          by_contra hle
          rw [rowsCover_above ox oy rest qx qy (by omega)] at hcov
          exact absurd hcov (by decide)
        rw [Blit.dots_pixel _ _ _ _ _ _ _ ⟨hx, hy⟩] at hon
        exact ⟨qx, qy, hx, hy, by simpa [show qy ≠ oy by omega] using hon, by simp [rowsCover_cons, hcov]⟩
    · rintro ⟨qx, qy, hx, hy, hon, hcov⟩
      rw [rowsCover_cons, Bool.or_eq_true, Bool.and_eq_true, decide_eq_true_eq] at hcov
      rcases hcov with ⟨⟨rfl, hle, hlt⟩, hbit⟩ | hcov
      · exact .inl ⟨qx - ox, by omega, hbit, by rwa [show ox + (qx - ox) = qx by omega]⟩
      · have hlt : oy < qy := by
          by_contra hle
          rw [rowsCover_above ox oy rest qx qy (by omega)] at hcov
          exact absurd hcov (by decide)
        refine .inr ⟨qx, qy, hx, hy, ?_, hcov⟩
        rw [Blit.dots_pixel _ _ _ _ _ _ _ ⟨hx, hy⟩]
        simpa [show qy ≠ oy by omega] using hon

/-- The rows read at I cover what the claims call the sprite's cover. -/
theorem State.rowsCover_sprite (s : State) (x y n : Nibble) (qx qy : Nat) :
    rowsCover (s.readV x).toNat (s.readV y).toNat (s.readBytes (s.effAddr 0) n.toNat) qx qy =
      s.spriteCovers x y n qx qy := by
  unfold rowsCover State.spriteCovers
  rw [State.length_readBytes]
  by_cases h : (s.readV x).toNat ≤ qx ∧ qx < (s.readV x).toNat + 8 ∧
    (s.readV y).toNat ≤ qy ∧ qy < (s.readV y).toNat + n.toNat
  · have hlen : qy - (s.readV y).toNat < (s.readBytes (s.effAddr 0) n.toNat).length := by
      rw [State.length_readBytes]
      omega
    rw [List.getD_eq_getElem?_getD, List.getElem?_eq_getElem hlen, Option.getD_some, State.getElem_readBytes]
    have hw : qx - (s.readV x).toNat < 8 := by omega
    simp [State.effAddr, spriteBit, BitVec.getMsbD, hw]
  · simp [h]

/-- The blit of a sprite, pixel by pixel (R126 to R128). -/
theorem State.blitSprite_pixel (s : State) (x y n : Nibble) (qx qy : Nat) (hq : qx < 64 ∧ qy < 32) :
    Framebuffer.pixel (s.blitSprite x y n).1 qx qy = (Framebuffer.pixel s.fb qx qy != s.spriteCovers x y n qx qy) := by
  rw [State.blitSprite, Blit.rows_pixel _ _ _ _ _ _ hq, State.rowsCover_sprite]

/-- The collision bit of a sprite (R129). -/
theorem State.blitSprite_collision (s : State) (x y n : Nibble) :
    (s.blitSprite x y n).2 = true ↔
      ∃ qx qy, qx < 64 ∧ qy < 32 ∧ Framebuffer.pixel s.fb qx qy = true ∧ s.spriteCovers x y n qx qy = true := by
  rw [State.blitSprite, Blit.rows_collision]
  simp [State.rowsCover_sprite]

end Sys2Proof.Machine
end

