-- ==== Sys2Proof/Laws/Frame.lean ====
section
/-! SUPPORT. What each update changes, in the terms the claims use: one lemma per update. -/

namespace Sys2Proof.Machine

theorem onlyChanges_refl (ps : List Part) (s : State) : onlyChanges ps s s := by
  intro p _
  cases p <;> first | rfl | exact fun _ => rfl

theorem onlyChanges_mono {ps qs : List Part} {s t : State} (h : onlyChanges ps s t) (hpq : ps ⊆ qs) :
    onlyChanges qs s t :=
  fun p hp => h p fun hq => hp (hpq hq)

theorem Part.same_trans {s t u : State} {p : Part} (h : Part.same s t p) (h' : Part.same t u p) : Part.same s u p := by
  cases p <;> first | exact h'.trans h | exact fun a => (h' a).trans (h a)

theorem onlyChanges_trans {ps : List Part} {s t u : State} (h : onlyChanges ps s t) (h' : onlyChanges ps t u) :
    onlyChanges ps s u :=
  fun p hp => Part.same_trans (h p hp) (h' p hp)

variable (s : State)

theorem onlyChanges_mem (m : Memory) : onlyChanges [.mem] s { s with mem := m } := by
  intro p hp
  cases p <;> first | rfl | exact fun _ => rfl | simp at hp

theorem onlyChanges_v (v : Vector Byte 16) : onlyChanges [.v] s { s with v := v } := by
  intro p hp
  cases p <;> first | rfl | exact fun _ => rfl | simp at hp

theorem onlyChanges_i (a : Word) : onlyChanges [.i] s { s with i := a } := by
  intro p hp
  cases p <;> first | rfl | exact fun _ => rfl | simp at hp

theorem onlyChanges_pc (a : Word) : onlyChanges [.pc] s { s with pc := a } := by
  intro p hp
  cases p <;> first | rfl | exact fun _ => rfl | simp at hp

theorem onlyChanges_stack (v : Vector Word 16) (n : Fin 17) (a : Word) :
    onlyChanges [.pc, .sp, .stack] s { s with stack := v, sp := n, pc := a } := by
  intro p hp
  cases p <;> first | rfl | exact fun _ => rfl | simp at hp

theorem onlyChanges_pop (n : Fin 17) (a : Word) : onlyChanges [.pc, .sp] s { s with sp := n, pc := a } := by
  intro p hp
  cases p <;> first | rfl | exact fun _ => rfl | simp at hp

theorem onlyChanges_dt (b : Byte) : onlyChanges [.dt] s { s with dt := b } := by
  intro p hp
  cases p <;> first | rfl | exact fun _ => rfl | simp at hp

theorem onlyChanges_st (b : Byte) : onlyChanges [.st] s { s with st := b } := by
  intro p hp
  cases p <;> first | rfl | exact fun _ => rfl | simp at hp

theorem onlyChanges_key (k : Vector Bool 16) : onlyChanges [.key] s { s with key := k } := by
  intro p hp
  cases p <;> first | rfl | exact fun _ => rfl | simp at hp

theorem onlyChanges_out (o : Output) : onlyChanges [.out] s { s with out := o } := by
  intro p hp
  cases p <;> first | rfl | exact fun _ => rfl | simp at hp

theorem onlyChanges_fb (f : Framebuffer) (o : Output) : onlyChanges [.fb, .out] s { s with fb := f, out := o } := by
  intro p hp
  cases p <;> first | rfl | exact fun _ => rfl | simp at hp

theorem onlyChanges_draw (v : Vector Byte 16) (n : Nat) : onlyChanges [.v, .draws] s { s with v := v, draws := n } := by
  intro p hp
  cases p <;> first | rfl | exact fun _ => rfl | simp at hp

theorem onlyChanges_raise (e : FatalError) : onlyChanges [.status, .out] s (s.raise e) := by
  intro p hp
  cases p <;> first | rfl | exact fun _ => rfl | simp at hp

theorem onlyChanges_afterBlit (a : Blit) : onlyChanges [.v, .fb, .out] s (s.afterBlit a) := by
  intro p hp
  cases p <;> first | rfl | exact fun _ => rfl | simp at hp

theorem onlyChanges_fetched : onlyChanges [.pc, .out] s s.fetched := by
  intro p hp
  cases p <;> first | rfl | exact fun _ => rfl | simp at hp

theorem onlyChanges_timerStep : onlyChanges [.dt, .st, .out] s s.timerStep := by
  rw [State.timerStep_eq]
  intro p hp
  cases p <;> first | rfl | exact fun _ => rfl | simp at hp

/-- An instruction that raises, in the terms the claims use. -/
theorem raises_of_exec {i : Instr} {s : State} {e : FatalError} (h : exec i s = .next (s.raise e)) : raises i s e :=
  ⟨_, h, rfl, rfl, onlyChanges_raise s e⟩

end Sys2Proof.Machine
end

