-- ==== Sys2Proof/Laws/Cycle.lean ====
section
/-! SUPPORT. What executing an instruction and running a cycle can do, each said once. -/

namespace Sys2Proof.Machine

/-- Executing any instruction answers a next state: it raises an error, or it leaves the run status, the reported error
and the tone as they were. -/
theorem exec_cases (i : Instr) (s : State) :
    (∃ e, exec i s = .next (s.raise e)) ∨
    (∃ t, exec i s = .next t ∧ t.status = s.status ∧ t.out.err = s.out.err ∧ t.out.tone = s.out.tone) := by
  have check : ∀ (c : Option FatalError) (t : State), t.status = s.status → t.out.err = s.out.err →
      t.out.tone = s.out.tone → (∃ e, raiseOr c s t = .next (s.raise e)) ∨
      (∃ u, raiseOr c s t = .next u ∧ u.status = s.status ∧ u.out.err = s.out.err ∧ u.out.tone = s.out.tone) :=
    fun c t hs he ht => by
      cases c with
      | some e => exact .inl ⟨e, rfl⟩
      | none => exact .inr ⟨t, rfl, hs, he, ht⟩
  cases i
  case ret =>
    rcases execRet_cases s with ⟨_, h⟩ | ⟨_, h⟩
    · exact .inr ⟨_, h, rfl, rfl, rfl⟩
    · exact .inl ⟨_, h⟩
  case call nnn =>
    rcases execCall_cases nnn s with ⟨_, h⟩ | ⟨_, h⟩
    · exact .inr ⟨_, h, rfl, rfl, rfl⟩
    · exact .inl ⟨_, h⟩
  case ldVxK x =>
    rcases execLdVxK_cases x s with ⟨_, _, h⟩ | ⟨_, h⟩ <;> exact .inr ⟨_, h, rfl, rfl, rfl⟩
  case skp x => exact check _ _ (by simp [State.skipIf_eq]) (by simp [State.skipIf_eq]) (by simp [State.skipIf_eq])
  case sknp x => exact check _ _ (by simp [State.skipIf_eq]) (by simp [State.skipIf_eq]) (by simp [State.skipIf_eq])
  case addI x => exact check _ _ rfl rfl rfl
  case ldB x => exact check _ _ rfl rfl rfl
  case stMemVx x => exact check _ _ rfl rfl rfl
  case ldMemVx x => exact check _ _ rfl rfl rfl
  case drw x y n => exact check _ _ rfl rfl rfl
  case seVxKk x kk => exact .inr ⟨_, rfl, by simp [State.skipIf_eq], by simp [State.skipIf_eq], by simp [State.skipIf_eq]⟩
  case sneVxKk x kk => exact .inr ⟨_, rfl, by simp [State.skipIf_eq], by simp [State.skipIf_eq], by simp [State.skipIf_eq]⟩
  case seVxVy x y => exact .inr ⟨_, rfl, by simp [State.skipIf_eq], by simp [State.skipIf_eq], by simp [State.skipIf_eq]⟩
  case sneVxVy x y => exact .inr ⟨_, rfl, by simp [State.skipIf_eq], by simp [State.skipIf_eq], by simp [State.skipIf_eq]⟩
  all_goals exact .inr ⟨_, rfl, rfl, rfl, rfl⟩

/-- The state in which a fetched instruction executes. -/
theorem State.fetched_eq (s : State) : s.clearOut.advance = s.fetched := rfl

/-- A cycle whose fetch reads an instruction executes it in the fetched state. -/
theorem step_of_fetches {s : State} {i : Instr} (h : fetches s i) : step s = endExecute (exec i s.fetched) := by
  obtain ⟨hr, hpc, hd⟩ := h
  have hf : s.clearOut.checkFetch = none := if_neg (by simpa using hpc)
  have hw : decode s.clearOut.fetchWord = .instr i := hd
  simp only [step, runCycle, hr, runRunning, hf, executeWord, hw, State.fetched_eq]

/-- A cycle whose fetch reads an unknown word reports it and steps the timers. -/
theorem step_of_unknown {s : State} {w : Word} (hr : s.status = .running) (hpc : s.pc.toNat ≤ 0xFFE)
    (hd : decode s.fetchWord = .unknownOpcode w) :
    step s = .next (s.fetched.reportUnknown s.pc w).timerStep := by
  have hf : s.clearOut.checkFetch = none := if_neg (by simpa using hpc)
  have hw : decode s.clearOut.fetchWord = .unknownOpcode w := hd
  simp only [step, runCycle, hr, runRunning, hf, executeWord, hw, State.fetched_eq, State.endCycle,
    State.reportUnknown_status, State.fetched_status]

/-- A cycle whose fetch is past the end halts. -/
theorem step_of_past_end {s : State} (hr : s.status = .running) (hpc : 0xFFE < s.pc.toNat) :
    step s = .next (s.clearOut.raise (.outOfBounds s.pc .mem (max s.pc.toNat 0x1000))) := by
  have hf : s.clearOut.checkFetch = some (.outOfBounds s.pc .mem (max s.pc.toNat 0x1000)) :=
    if_pos (by simpa using hpc)
  simp only [step, runCycle, hr, runRunning, hf]

/-- A cycle of a halted machine only reports. -/
theorem step_of_halted {s : State} {e : FatalError} (h : s.status = .halted e) : step s = .next (s.reportHalted e) := by
  simp only [step, runCycle, h]

/-- What a step can do: report on a halted machine, halt on a fetch past the end, report an unknown word, or execute the
instruction fetched. -/
theorem step_cases (s : State) :
    (∃ e, s.status = .halted e ∧ step s = .next (s.reportHalted e)) ∨
    (s.status = .running ∧ 0xFFE < s.pc.toNat ∧
      step s = .next (s.clearOut.raise (.outOfBounds s.pc .mem (max s.pc.toNat 0x1000)))) ∨
    (s.status = .running ∧ s.pc.toNat ≤ 0xFFE ∧ decode s.fetchWord = .unknownOpcode s.fetchWord ∧
      step s = .next (s.fetched.reportUnknown s.pc s.fetchWord).timerStep) ∨
    (∃ i, fetches s i ∧ step s = endExecute (exec i s.fetched)) := by
  cases hr : s.status with
  | halted e => exact .inl ⟨e, rfl, step_of_halted hr⟩
  | running =>
    by_cases hpc : s.pc.toNat ≤ 0xFFE
    · cases hd : decode s.fetchWord with
      | instr i =>
        have hf : fetches s i := ⟨hr, hpc, hd⟩
        exact .inr (.inr (.inr ⟨i, hf, step_of_fetches hf⟩))
      | unknownOpcode w =>
        obtain rfl := decode_unknown hd
        exact .inr (.inr (.inl ⟨rfl, hpc, rfl, step_of_unknown hr hpc hd⟩))
    · exact .inr (.inl ⟨rfl, by omega, step_of_past_end hr (by omega)⟩)

/-- A cycle that executes raises, or ends with the timer step on what its instruction left. -/
theorem step_of_fetches_cases {s : State} {i : Instr} (h : fetches s i) :
    (∃ e, exec i s.fetched = .next (s.fetched.raise e) ∧ step s = .next (s.fetched.raise e)) ∨
    (∃ t, exec i s.fetched = .next t ∧ t.status = .running ∧ t.out.err = .none ∧ t.out.tone = false ∧
      step s = .next t.timerStep) := by
  have hstep := step_of_fetches h
  rcases exec_cases i s.fetched with ⟨e, he⟩ | ⟨t, ht, hst, herr, htone⟩
  · exact .inl ⟨e, he, by rw [hstep, he]; rfl⟩
  · have hr : t.status = .running := hst.trans h.1
    exact .inr ⟨t, ht, hr, herr, htone, by
      rw [hstep, ht]
      simp only [endExecute, State.endCycle, hr]⟩

end Sys2Proof.Machine
end

