-- ==== Sys2Proof/Laws/PerInstr.lean ====
section
/-! SUPPORT. Statements about every instruction as syntax, one lemma per constructor. -/

namespace Sys2Proof.Laws.EncodeCovered

/-- An instruction's word matches the instruction's own row of the opcode map: `(w & mask) = match` (30_encoding.md R73). -/
def Statement (i : Instr) : Prop := (Instr.row i).covers (encode i) = true

theorem cls : Statement .cls := by simp [Statement, Instr.row, OpcodeRow.covers, encode]

theorem ret : Statement .ret := by simp [Statement, Instr.row, OpcodeRow.covers, encode]

theorem jp (nnn : Addr) : Statement (.jp nnn) := by
  simp [Statement, Instr.row, OpcodeRow.covers, encode, and_familyMask]; decide

theorem call (nnn : Addr) : Statement (.call nnn) := by
  simp [Statement, Instr.row, OpcodeRow.covers, encode, and_familyMask]; decide

theorem seVxKk (x : Nibble) (kk : Byte) : Statement (.seVxKk x kk) := by
  simp [Statement, Instr.row, OpcodeRow.covers, encode, and_familyMask]; decide

theorem sneVxKk (x : Nibble) (kk : Byte) : Statement (.sneVxKk x kk) := by
  simp [Statement, Instr.row, OpcodeRow.covers, encode, and_familyMask]; decide

theorem seVxVy (x y : Nibble) : Statement (.seVxVy x y) := by
  simp [Statement, Instr.row, OpcodeRow.covers, encode, and_familyMask]; decide

theorem sneVxVy (x y : Nibble) : Statement (.sneVxVy x y) := by
  simp [Statement, Instr.row, OpcodeRow.covers, encode, and_familyMask]; decide

theorem ldVxKk (x : Nibble) (kk : Byte) : Statement (.ldVxKk x kk) := by
  simp [Statement, Instr.row, OpcodeRow.covers, encode, and_familyMask]; decide

theorem addVxKk (x : Nibble) (kk : Byte) : Statement (.addVxKk x kk) := by
  simp [Statement, Instr.row, OpcodeRow.covers, encode, and_familyMask]; decide

theorem ldVxVy (x y : Nibble) : Statement (.ldVxVy x y) := by
  simp [Statement, Instr.row, OpcodeRow.covers, encode, and_aluMask]; decide

theorem orVxVy (x y : Nibble) : Statement (.orVxVy x y) := by
  simp [Statement, Instr.row, OpcodeRow.covers, encode, and_aluMask]; decide

theorem andVxVy (x y : Nibble) : Statement (.andVxVy x y) := by
  simp [Statement, Instr.row, OpcodeRow.covers, encode, and_aluMask]; decide

theorem xorVxVy (x y : Nibble) : Statement (.xorVxVy x y) := by
  simp [Statement, Instr.row, OpcodeRow.covers, encode, and_aluMask]; decide

theorem addVxVy (x y : Nibble) : Statement (.addVxVy x y) := by
  simp [Statement, Instr.row, OpcodeRow.covers, encode, and_aluMask]; decide

theorem subVxVy (x y : Nibble) : Statement (.subVxVy x y) := by
  simp [Statement, Instr.row, OpcodeRow.covers, encode, and_aluMask]; decide

theorem shrVx (x y : Nibble) : Statement (.shrVx x y) := by
  simp [Statement, Instr.row, OpcodeRow.covers, encode, and_aluMask]; decide

theorem subnVxVy (x y : Nibble) : Statement (.subnVxVy x y) := by
  simp [Statement, Instr.row, OpcodeRow.covers, encode, and_aluMask]; decide

theorem shlVx (x y : Nibble) : Statement (.shlVx x y) := by
  simp [Statement, Instr.row, OpcodeRow.covers, encode, and_aluMask]; decide

theorem ldI (nnn : Addr) : Statement (.ldI nnn) := by
  simp [Statement, Instr.row, OpcodeRow.covers, encode, and_familyMask]; decide

theorem jpV0 (nnn : Addr) : Statement (.jpV0 nnn) := by
  simp [Statement, Instr.row, OpcodeRow.covers, encode, and_familyMask]; decide

theorem rnd (x : Nibble) (kk : Byte) : Statement (.rnd x kk) := by
  simp [Statement, Instr.row, OpcodeRow.covers, encode, and_familyMask]; decide

theorem drw (x y n : Nibble) : Statement (.drw x y n) := by
  simp [Statement, Instr.row, OpcodeRow.covers, encode, and_familyMask]; decide

theorem skp (x : Nibble) : Statement (.skp x) := by
  simp [Statement, Instr.row, OpcodeRow.covers, encode, and_selectorMask]; decide

theorem sknp (x : Nibble) : Statement (.sknp x) := by
  simp [Statement, Instr.row, OpcodeRow.covers, encode, and_selectorMask]; decide

theorem ldVxDt (x : Nibble) : Statement (.ldVxDt x) := by
  simp [Statement, Instr.row, OpcodeRow.covers, encode, and_selectorMask]; decide

theorem ldVxK (x : Nibble) : Statement (.ldVxK x) := by
  simp [Statement, Instr.row, OpcodeRow.covers, encode, and_selectorMask]; decide

theorem ldDtVx (x : Nibble) : Statement (.ldDtVx x) := by
  simp [Statement, Instr.row, OpcodeRow.covers, encode, and_selectorMask]; decide

theorem ldStVx (x : Nibble) : Statement (.ldStVx x) := by
  simp [Statement, Instr.row, OpcodeRow.covers, encode, and_selectorMask]; decide

theorem addI (x : Nibble) : Statement (.addI x) := by
  simp [Statement, Instr.row, OpcodeRow.covers, encode, and_selectorMask]; decide

theorem ldF (x : Nibble) : Statement (.ldF x) := by
  simp [Statement, Instr.row, OpcodeRow.covers, encode, and_selectorMask]; decide

theorem ldB (x : Nibble) : Statement (.ldB x) := by
  simp [Statement, Instr.row, OpcodeRow.covers, encode, and_selectorMask]; decide

theorem stMemVx (x : Nibble) : Statement (.stMemVx x) := by
  simp [Statement, Instr.row, OpcodeRow.covers, encode, and_selectorMask]; decide

theorem ldMemVx (x : Nibble) : Statement (.ldMemVx x) := by
  simp [Statement, Instr.row, OpcodeRow.covers, encode, and_selectorMask]; decide

end Sys2Proof.Laws.EncodeCovered
end

