-- ==== Sys2Proof/Tests/Slice0.lean ====
section
/-! SUPPORT. The model's own tests: ill-formed words, decoding, one-step vectors of 95_test_vectors.md (named by their ids
there), and the witnesses of the statements' hypotheses. -/

namespace Sys2Proof.Tests

open Sys2Proof Sys2Proof.Machine

/-! ### Ill-formed words are refused, one for each sub-dispatched family (30_encoding.md R70) -/

theorem test_family0_ill_formed : wordWellFormed 0x0123 = false ∧ wordWellFormed 0x00E1 = false := by decide
theorem test_family8_ill_formed : wordWellFormed 0x8118 = false ∧ wordWellFormed 0x811F = false := by decide
theorem test_familyE_ill_formed : wordWellFormed 0xE0A0 = false ∧ wordWellFormed 0xE000 = false := by decide
theorem test_familyF_ill_formed : wordWellFormed 0xF066 = false ∧ wordWellFormed 0xF0FF = false := by decide
theorem test_well_formed : wordWellFormed 0x00E0 = true ∧ wordWellFormed 0x5125 = true ∧ wordWellFormed 0xF365 = true := by decide

/-- A sequence shorter than a word is refused (R63). -/
theorem test_truncated : decodeBytes [0x12] = .truncated ∧ decodeBytes [] = .truncated := by decide

/-! ### Decoding: every constructor, its word written out from R64, R65 and R73, with fields that differ -/

theorem test_decode_family0 : decodeTableWord 16 0x00E0 = some .cls ∧ decodeTableWord 16 0x00EE = some .ret := by decide
theorem test_decode_addresses :
    decodeTableWord 16 0x1ABC = some (.jp 0xABC) ∧ decodeTableWord 16 0x2ABC = some (.call 0xABC) ∧
    decodeTableWord 16 0xAABC = some (.ldI 0xABC) ∧ decodeTableWord 16 0xB1FF = some (.jpV0 0x1FF) := by decide
theorem test_decode_immediates :
    decodeTableWord 16 0x3A42 = some (.seVxKk 0xA 0x42) ∧ decodeTableWord 16 0x4A42 = some (.sneVxKk 0xA 0x42) ∧
    decodeTableWord 16 0x6A7B = some (.ldVxKk 0xA 0x7B) ∧ decodeTableWord 16 0x71FF = some (.addVxKk 0x1 0xFF) ∧
    decodeTableWord 16 0xC3F0 = some (.rnd 0x3 0xF0) := by decide
theorem test_decode_register_skips :
    decodeTableWord 16 0x5120 = some (.seVxVy 1 2) ∧ decodeTableWord 16 0x5125 = some (.seVxVy 1 2) ∧
    decodeTableWord 16 0x9120 = some (.sneVxVy 1 2) ∧ decodeTableWord 16 0x912F = some (.sneVxVy 1 2) := by decide
theorem test_decode_alu :
    decodeTableWord 16 0x8120 = some (.ldVxVy 1 2) ∧ decodeTableWord 16 0x8121 = some (.orVxVy 1 2) ∧
    decodeTableWord 16 0x8122 = some (.andVxVy 1 2) ∧ decodeTableWord 16 0x8123 = some (.xorVxVy 1 2) ∧
    decodeTableWord 16 0x8124 = some (.addVxVy 1 2) ∧ decodeTableWord 16 0x8125 = some (.subVxVy 1 2) ∧
    decodeTableWord 16 0x8126 = some (.shrVx 1 2) ∧ decodeTableWord 16 0x8127 = some (.subnVxVy 1 2) ∧
    decodeTableWord 16 0x812E = some (.shlVx 1 2) := by decide
theorem test_decode_draw : decodeTableWord 16 0xD125 = some (.drw 1 2 5) := by decide
theorem test_decode_keys : decodeTableWord 16 0xE59E = some (.skp 5) ∧ decodeTableWord 16 0xE5A1 = some (.sknp 5) := by decide
theorem test_decode_familyF :
    decodeTableWord 16 0xF307 = some (.ldVxDt 3) ∧ decodeTableWord 16 0xF50A = some (.ldVxK 5) ∧
    decodeTableWord 16 0xF215 = some (.ldDtVx 2) ∧ decodeTableWord 16 0xF218 = some (.ldStVx 2) ∧
    decodeTableWord 16 0xF11E = some (.addI 1) ∧ decodeTableWord 16 0xF129 = some (.ldF 1) ∧
    decodeTableWord 16 0xFA33 = some (.ldB 0xA) ∧ decodeTableWord 16 0xF255 = some (.stMemVx 2) ∧
    decodeTableWord 16 0xF365 = some (.ldMemVx 3) := by decide
/-- Vector TE5's words are unknown. -/
theorem test_decode_unknown :
    ∀ w ∈ [0x0000, 0x00E1, 0x00FF, 0x8008, 0x800F, 0xE000, 0xE0A0, 0xF000, 0xF066, 0xF0FF], decodeTableWord 16 w = none := by
  decide
/-- The low byte of the table's numbering is the byte at the higher address (R50, S10). -/
theorem test_word_bytes : bytesOfWord 0x6A7B = [0x6A, 0x7B] ∧ wordOfBytes 0x6A 0x7B = 0x6A7B := by decide

/-! ### One step -/

/-- The state a step leaves, tested. -/
def stepGives (s : State) (p : State → Bool) : Bool :=
  match step s with
  | .next t => p t
  | .fault _ => false
  | .refused _ => false

/-- The state after reset with some registers set, the word at pc placed last. -/
def start (regs : List (Nibble × Byte)) (w : Nat) : State :=
  (regs.foldl (fun s r => s.writeV r.1 r.2) State.reset).withFetchWord 16 w

/-- As `start`, with I and some memory bytes. -/
def startI (regs : List (Nibble × Byte)) (i : Word) (a : Nat) (bs : List Byte) (w : Nat) : State :=
  { (start regs w).storeBytes a bs with i := i }

/-- TE1: the last fetch below the end. -/
theorem test_fetch_last : stepGives (({ State.reset with pc := 0xFFE } : State).withFetchWord 16 0x6001)
    (fun t => t.readV 0 == 1 && t.pc == 0x1000 && t.status == .running) = true := by decide
/-- TE2: a fetch past the end. -/
theorem test_fetch_past : stepGives { State.reset with pc := 0xFFF, dt := 5 }
    (fun t => t.out.err == .fatal (.outOfBounds 0xFFF .mem 0x1000) && t.pc == 0xFFF && t.dt == 5) = true := by decide
/-- TE4: an unknown opcode is reported and the timer steps. -/
theorem test_unknown : stepGives { start [] 0x0123 with dt := 5 }
    (fun t => t.out.err == .unknownOpcode 0x200 0x0123 && t.pc == 0x202 && t.dt == 4 && t.status == .running) = true := by
  decide
/-- TK17, TK18 (R148): the tone. -/
theorem test_tone : stepGives { start [] 0x6000 with st := 2 } (fun t => t.st == 1 && t.out.tone) = true ∧
    stepGives { start [] 0x6000 with st := 1 } (fun t => t.st == 0 && !t.out.tone) = true := by decide

/-- TC1. -/
theorem test_ret : stepGives { start [] 0x00EE with sp := 1, stack := State.reset.stack.set 0 0x0206 }
    (fun t => t.pc == 0x206 && t.sp == 0 && t.stack[0] == 0x206) = true := by decide
/-- TE6. -/
theorem test_ret_underflow : stepGives { start [] 0x00EE with dt := 5 }
    (fun t => t.status == .halted (.stackUnderflow 0x200) && t.pc == 0x202 && t.dt == 5) = true := by decide
/-- TC3. -/
theorem test_jp : stepGives (start [] 0x1208) (fun t => t.pc == 0x208) = true := by decide
/-- TC7. -/
theorem test_call : stepGives { start [] 0x2300 with sp := 15 }
    (fun t => t.pc == 0x300 && t.sp == 16 && t.stack[15] == 0x202) = true := by decide
/-- TC8. -/
theorem test_call_overflow : stepGives { start [] 0x2300 with sp := 16 }
    (fun t => t.status == .halted (.stackOverflow 0x200) && t.pc == 0x202 && t.stack[15] == 0) = true := by decide
/-- TC9. -/
theorem test_se_imm : stepGives (start [(3, 0x42)] 0x3342) (fun t => t.pc == 0x204) = true ∧
    stepGives (start [(3, 0x42)] 0x3343) (fun t => t.pc == 0x202) = true := by decide
/-- TC10. -/
theorem test_sne_imm : stepGives (start [(3, 0x42)] 0x4342) (fun t => t.pc == 0x202) = true ∧
    stepGives (start [(3, 0x42)] 0x4343) (fun t => t.pc == 0x204) = true := by decide
/-- TC11, TC12. -/
theorem test_se_reg : stepGives (start [(1, 7), (2, 7)] 0x5125) (fun t => t.pc == 0x204) = true ∧
    stepGives (start [(1, 7), (2, 8)] 0x5120) (fun t => t.pc == 0x202) = true := by decide
/-- TC14, TC15. -/
theorem test_sne_reg : stepGives (start [(1, 7), (2, 8)] 0x912F) (fun t => t.pc == 0x204) = true ∧
    stepGives (start [] 0x9110) (fun t => t.pc == 0x202) = true := by decide
/-- TC18, TC19. -/
theorem test_jp_v0 : stepGives (start [(1, 5)] 0xB1FF) (fun t => t.pc == 0x1FF) = true ∧
    stepGives (start [(0, 0xFF)] 0xBFFF) (fun t => t.pc == 0x10FE) = true := by decide

/-- TA1. -/
theorem test_ld_imm : stepGives (start [] 0x6A7B) (fun t => t.readV 0xA == 0x7B && t.pc == 0x202) = true := by decide
/-- TA3, TA5. -/
theorem test_add_imm : stepGives (start [(1, 0xFF), (0xF, 0x55)] 0x7101) (fun t => t.readV 1 == 0 && t.readV 0xF == 0x55) = true ∧
    stepGives (start [(0xF, 0xFF)] 0x7F01) (fun t => t.readV 0xF == 0) = true := by decide
/-- TA6. -/
theorem test_ld_reg : stepGives (start [(2, 0x33)] 0x8120) (fun t => t.readV 1 == 0x33 && t.readV 2 == 0x33) = true := by decide
/-- TA7. -/
theorem test_or : stepGives (start [(1, 0xF0), (2, 0x0F), (0xF, 0x77)] 0x8121)
    (fun t => t.readV 1 == 0xFF && t.readV 0xF == 0x77) = true := by decide
/-- TA8. -/
theorem test_and : stepGives (start [(1, 0xF0), (2, 0x3C), (0xF, 0x77)] 0x8122)
    (fun t => t.readV 1 == 0x30 && t.readV 0xF == 0x77) = true := by decide
/-- TA9. -/
theorem test_xor : stepGives (start [(1, 0xF0), (2, 0x3C), (0xF, 0x77)] 0x8123)
    (fun t => t.readV 1 == 0xCC && t.readV 0xF == 0x77) = true := by decide
/-- TA14. -/
theorem test_add_into_vf : stepGives (start [(0xF, 0xFF), (1, 1)] 0x8F14) (fun t => t.readV 0xF == 1) = true := by decide
/-- TA15. -/
theorem test_add_from_vf : stepGives (start [(1, 1), (0xF, 0xFF)] 0x81F4)
    (fun t => t.readV 1 == 0 && t.readV 0xF == 1) = true := by decide
/-- TA17. -/
theorem test_sub_wraps : stepGives (start [(1, 3), (2, 0xA)] 0x8125) (fun t => t.readV 1 == 0xF9 && t.readV 0xF == 0) = true := by
  decide
/-- S4: equal operands give VF = 0. -/
theorem test_sub_equal : stepGives (start [(1, 5), (2, 5), (0xF, 1)] 0x8125) (fun t => t.readV 1 == 0 && t.readV 0xF == 0) = true := by
  decide
/-- TA19. -/
theorem test_shr : stepGives (start [(1, 5), (2, 0xFF)] 0x8126) (fun t => t.readV 1 == 2 && t.readV 0xF == 1) = true := by decide
/-- TA22. -/
theorem test_shr_vf : stepGives (start [(0xF, 3)] 0x8F06) (fun t => t.readV 0xF == 1) = true := by decide
/-- TA24, TA25. -/
theorem test_subn : stepGives (start [(1, 0xA), (2, 3)] 0x8127) (fun t => t.readV 1 == 0xF9 && t.readV 0xF == 0) = true ∧
    stepGives (start [(1, 7), (2, 7)] 0x8127) (fun t => t.readV 1 == 0 && t.readV 0xF == 0) = true := by decide
/-- TA26, TA27. -/
theorem test_shl : stepGives (start [(1, 0x81)] 0x812E) (fun t => t.readV 1 == 2 && t.readV 0xF == 1) = true ∧
    stepGives (start [(1, 0x40)] 0x812E) (fun t => t.readV 1 == 0x80 && t.readV 0xF == 0) = true := by decide
/-- TA31, for any draw, and the next draw is another. -/
theorem test_rnd_zero (r : Byte) : r &&& 0x00 = 0 := by simp
theorem test_rnd_draws : stepGives (start [] 0xC000) (fun t => t.draws == 1 && t.pc == 0x202) = true := by decide

/-- TM1. -/
theorem test_ld_i : stepGives (start [] 0xA123) (fun t => t.i == 0x123) = true := by decide
/-- TM2. -/
theorem test_add_i : stepGives { start [(1, 1)] 0xF11E with i := 0xFFF } (fun t => t.i == 0x1000 && t.status == .running) = true := by
  decide
/-- TM3. -/
theorem test_add_i_past : stepGives { start [(1, 1)] 0xF11E with i := 0xFFFF }
    (fun t => t.status == .halted (.outOfBounds 0x200 .ireg 0x10000) && t.i == 0xFFFF) = true := by decide
/-- TM6, TM7. -/
theorem test_ld_f : stepGives (start [(1, 0x1B)] 0xF129) (fun t => t.i == 0x37) = true ∧
    stepGives (start [(1, 0xF)] 0xF129) (fun t => t.i == 0x4B) = true := by decide
/-- TM9, TM12's last address. -/
theorem test_ld_b : stepGives (startI [(0xA, 0xFF)] 0xFFD 0x300 [] 0xFA33)
    (fun t => t.readByte 0xFFD == 2 && t.readByte 0xFFE == 5 && t.readByte 0xFFF == 5 && t.i == 0xFFD) = true := by decide
/-- TM13. -/
theorem test_ld_b_past : stepGives (startI [(0, 0x7B)] 0xFFE 0x300 [] 0xF033)
    (fun t => t.status == .halted (.outOfBounds 0x200 .mem 0x1000) && t.readByte 0xFFE == 0) = true := by decide
/-- TM14. -/
theorem test_store_regs : stepGives (startI [(0, 0x11), (1, 0x22), (2, 0x33), (3, 0x44)] 0x300 0x300 [] 0xF255)
    (fun t => t.readByte 0x300 == 0x11 && t.readByte 0x302 == 0x33 && t.readByte 0x303 == 0 && t.i == 0x300) = true := by decide
/-- TM17. -/
theorem test_store_regs_past : stepGives (startI [(0, 0x11)] 0xFF1 0x300 [] 0xFF55)
    (fun t => t.status == .halted (.outOfBounds 0x200 .mem 0x1000) && t.readByte 0xFF1 == 0) = true := by decide
/-- TM19. -/
theorem test_load_regs : stepGives (startI [(3, 0x44)] 0x300 0x300 [1, 2, 3] 0xF265)
    (fun t => t.readV 0 == 1 && t.readV 1 == 2 && t.readV 2 == 3 && t.readV 3 == 0x44 && t.i == 0x300) = true := by decide
/-- TM21. -/
theorem test_load_regs_past : stepGives (startI [(0, 0x11)] 0xFFF 0xFFF [0xAB] 0xF165)
    (fun t => t.status == .halted (.outOfBounds 0x200 .mem 0x1000) && t.readV 0 == 0x11) = true := by decide

/-- A framebuffer with one pixel on. -/
def pixelOn (x y : Nat) : Framebuffer := Framebuffer.toggle State.reset.fb x y

/-- TD1. -/
theorem test_cls : stepGives { start [(0xF, 7)] 0x00E0 with fb := pixelOn 5 5 }
    (fun t => !Framebuffer.pixel t.fb 5 5 && t.out.clearRequested && !t.out.fbChanged && t.readV 0xF == 7) = true := by decide
/-- TD5: a collision, the most significant bit leftmost. -/
theorem test_drw_collision : stepGives { startI [] 0x300 0x300 [0xC0] 0xD001 with fb := pixelOn 1 0 }
    (fun t => Framebuffer.pixel t.fb 0 0 && !Framebuffer.pixel t.fb 1 0 && t.readV 0xF == 1 && t.out.fbChanged) = true := by decide
/-- TD15 (the old VF is the column), with the right edge of TD8. -/
theorem test_drw_clips : stepGives (startI [(0xF, 62), (0, 31)] 0x300 0x300 [0xFF, 0xFF] 0xDF02)
    (fun t => Framebuffer.pixel t.fb 62 31 && Framebuffer.pixel t.fb 63 31 && !Framebuffer.pixel t.fb 0 31 &&
      !Framebuffer.pixel t.fb 62 0 && t.readV 0xF == 0) = true := by decide
/-- TD14. -/
theorem test_drw_past : stepGives (startI [(0xF, 7)] 0xFFC 0xFFC [0xFF] 0xD015)
    (fun t => t.status == .halted (.outOfBounds 0x200 .mem 0x1000) && t.readV 0xF == 7 && !Framebuffer.pixel t.fb 0 0) = true := by
  decide
/-- TD12. -/
theorem test_drw_none : stepGives (startI [(0xF, 7)] 0x1000 0x300 [] 0xD010)
    (fun t => t.status == .running && t.readV 0xF == 0 && t.out.fbChanged) = true := by decide

/-- Key 7 pressed. -/
def key7 : Vector Bool 16 := State.reset.key.set 7 true

/-- TK1, TK2, at 0x200. -/
theorem test_skp : stepGives { start [(5, 7)] 0xE59E with key := key7 } (fun t => t.pc == 0x204) = true ∧
    stepGives (start [(5, 7)] 0xE59E) (fun t => t.pc == 0x202) = true := by decide
/-- TK5. -/
theorem test_skp_past : stepGives (start [(5, 0x10)] 0xE59E)
    (fun t => t.status == .halted (.outOfBounds 0x200 .key 0x10) && t.pc == 0x202) = true := by decide
/-- TK3, TK4, at 0x200. -/
theorem test_sknp : stepGives { start [(5, 7)] 0xE5A1 with key := key7 } (fun t => t.pc == 0x202) = true ∧
    stepGives (start [(5, 7)] 0xE5A1) (fun t => t.pc == 0x204) = true := by decide
/-- TK6. -/
theorem test_sknp_past : stepGives (start [(5, 0xFF)] 0xE5A1)
    (fun t => t.status == .halted (.outOfBounds 0x200 .key 0xFF) && t.pc == 0x202) = true := by decide
/-- TK7. -/
theorem test_ld_dt : stepGives { start [] 0xF307 with dt := 9 } (fun t => t.readV 3 == 9 && t.dt == 8) = true := by decide
/-- TK9, with keys 7 and 9. -/
theorem test_ld_k : stepGives { start [] 0xF50A with key := key7.set 9 true } (fun t => t.readV 5 == 7 && t.pc == 0x202) = true := by
  decide
/-- TK10. -/
theorem test_ld_k_waits : stepGives { start [(5, 0x66)] 0xF50A with dt := 5 }
    (fun t => t.pc == 0x200 && t.readV 5 == 0x66 && t.dt == 4) = true := by decide
/-- TK12, TK13. -/
theorem test_set_dt : stepGives (start [(2, 5)] 0xF215) (fun t => t.dt == 4) = true ∧
    stepGives (start [(2, 0)] 0xF215) (fun t => t.dt == 0) = true := by decide
/-- TK14, TK15. -/
theorem test_set_st : stepGives (start [(2, 2)] 0xF218) (fun t => t.st == 1 && t.out.tone) = true ∧
    stepGives (start [(2, 1)] 0xF218) (fun t => t.st == 0 && !t.out.tone) = true := by decide

/-! ### Host operations and the default font -/

/-- TE8: a key index above 15 is rejected. -/
theorem test_set_key : (State.reset.setKey 7 true).keyAt 7 = true ∧ State.reset.setKey 16 true = State.reset := by decide
/-- S1. -/
theorem test_load : (match State.reset.loadProgram [0x12, 0x34, 0xAB] with
    | .ok t => t.readByte 0x200 == 0x12 && t.readByte 0x202 == 0xAB && t.readByte 0x203 == 0
    | .boundaryError _ => false) = true := by decide
/-- S2: glyph 0 and glyph F of the default font, and glyph 8 where its second half starts. -/
theorem test_default_font :
    [0, 1, 2, 3, 4].map (fun k => Config.defaultFont[k]?) = [some 0xF0, some 0x90, some 0x90, some 0x90, some 0xF0] ∧
    [75, 76, 77, 78, 79].map (fun k => Config.defaultFont[k]?) = [some 0xF0, some 0x80, some 0xF0, some 0x80, some 0x80] ∧
    [40, 41, 42, 43, 44].map (fun k => Config.defaultFont[k]?) = [some 0xF0, some 0x90, some 0xF0, some 0x90, some 0xF0] := by
  decide

/-! ### Witnesses: for each statement with hypotheses, a state and operands that meet them, at the edge of each clause -/

/-- `exec` answers a next state here. -/
def completes (i : Instr) (s : State) : Prop := ∃ t, exec i s = .next t

/-- A running machine whose next word is an instruction. -/
theorem wit_fetches : fetches (start [] 0x8124) (.addVxVy 1 2) := by
  refine ⟨?_, ?_, ?_⟩ <;> decide
/-- The last address an instruction can be fetched from. -/
theorem wit_fetches_last : fetches (({ State.reset with pc := 0xFFE } : State).withFetchWord 16 0x6001) (.ldVxKk 0 1) := by
  refine ⟨?_, ?_, ?_⟩ <;> decide
theorem wit_FetchPastEndHalts : ({ State.reset with pc := 0xFFF } : State).status = .running ∧
    0xFFE < ({ State.reset with pc := 0xFFF } : State).pc.toNat := by decide
theorem wit_StepRunsDecoded : fetches (start [] 0x8124) (.addVxVy 1 2) := wit_fetches
theorem wit_UnknownOpcodeCycle :
    let s := ({ State.reset with pc := 0xFFE } : State).withFetchWord 16 0x8008
    s.status = .running ∧ s.pc.toNat ≤ 0xFFE ∧
      wordOfBytes (s.readByte s.pc.toNat) (s.readByte (s.pc.toNat + 1)) = 0x8008 ∧ decode 0x8008 = .unknownOpcode 0x8008 := by
  refine ⟨?_, ?_, ?_, ?_⟩ <;> decide
theorem wit_FatalErrorWritesNothing_exec : ∃ t, State.reset.status = .running ∧ exec .ret State.reset = .next t ∧
    t.status = .halted (.stackUnderflow 0x1FE) := ⟨_, rfl, rfl, rfl⟩
theorem wit_FatalErrorWritesNothing_cycle : ∃ t, fetches (start [] 0x00EE) .ret ∧ step (start [] 0x00EE) = .next t ∧
    t.status = .halted (.stackUnderflow 0x200) := by
  refine ⟨_, ⟨?_, ?_, ?_⟩, rfl, ?_⟩ <;> decide
/-- A halted machine, with the record its halting cycle left. -/
def halted : State := State.reset.raise (.stackOverflow 0x200)
theorem wit_HaltedMachineStays : halted.status = .halted (.stackOverflow 0x200) ∧ halted.statusAgrees := ⟨rfl, rfl⟩
theorem wit_DelayTimerStep : 0 < ({ State.reset with dt := 1 } : State).dt.toNat ∧ State.reset.dt.toNat = 0 := by decide
theorem wit_TimersStepOncePerCycle : ∃ t, (start [] 0x8124).status = .running ∧ step (start [] 0x8124) = .next t ∧
    t.status = .running ∧ (∀ x, ¬ fetches (start [] 0x8124) (.ldDtVx x)) ∧ (∀ x, ¬ fetches (start [] 0x8124) (.ldStVx x)) := by
  refine ⟨_, rfl, rfl, by decide, fun x h => ?_, fun x h => ?_⟩
  · exact absurd (wit_fetches.2.2.symm.trans h.2.2) (by simp)
  · exact absurd (wit_fetches.2.2.symm.trans h.2.2) (by simp)
theorem wit_TimerInstructionCycles : fetches (start [] 0xF307) (.ldVxDt 3) ∧ fetches (start [] 0xF315) (.ldDtVx 3) ∧
    fetches (start [] 0xF318) (.ldStVx 3) := by
  refine ⟨⟨?_, ?_, ?_⟩, ⟨?_, ?_, ?_⟩, ⟨?_, ?_, ?_⟩⟩ <;> decide
theorem wit_ResetValues : ∃ s t : State, s ≠ State.reset ∧ t = s.hostReset := ⟨halted, _, by decide, rfl⟩
/-- A state other than reset's, every register of the bounds at its highest value. -/
def bounded : State := { State.reset with pc := 0x10FE, stack := Vector.replicate 16 0x1000, sp := 16 }
theorem wit_StepKeepsMemoryCanonical : ∃ t, bounded.memCanonical ∧ step bounded = .next t := ⟨_, State.reset_memory_wf, rfl⟩
theorem wit_StepKeepsPcBounded : ∃ t, bounded.pcBounded ∧ step bounded = .next t := ⟨_, ⟨by decide, by decide⟩, rfl⟩
theorem wit_StepKeepsStatusAgreement : ∃ t, halted.statusAgrees ∧ step halted = .next t := ⟨_, rfl, rfl⟩
theorem wit_HostCallsKeepInvariants : bounded.inv :=
  ⟨State.reset_memory_wf, ⟨by decide, by decide⟩, fun e h => by simp [bounded, State.reset, Output.quiet] at h⟩
theorem wit_ExecChangesOnly : completes (.stMemVx 0xF) { State.reset with i := 0xFF0 } ∧ completes .cls State.reset :=
  ⟨⟨_, rfl⟩, ⟨_, rfl⟩⟩
theorem wit_ExecRegisterFrame : completes (.ldMemVx 2) State.reset ∧ mayWriteV 3 (.ldMemVx 2) = false ∧
    mayWriteV 2 (.ldMemVx 2) = true := ⟨⟨_, rfl⟩, by decide, by decide⟩
theorem wit_CycleChangesOnly : fetches (start [] 0x8124) (.addVxVy 1 2) ∧ ∃ t, step (start [] 0x8124) = .next t :=
  ⟨wit_fetches, _, rfl⟩
theorem wit_KeyLatchConstant : ∃ t, step { start [(5, 7)] 0xE59E with key := key7 } = .next t := ⟨_, rfl⟩
theorem wit_LoadedProgramReadsBack : State.reset.memCanonical ∧ (List.replicate 0xE00 (0xAB : Byte)).length ≤ 0xE00 :=
  ⟨State.reset_memory_wf, by rw [List.length_replicate]⟩
theorem wit_HostOperationFrames : 0xE00 < (List.replicate 0xE01 (0xAB : Byte)).length ∧
    (List.replicate 0xE00 (0xAB : Byte)).length ≤ 0xE00 := by
  rw [List.length_replicate, List.length_replicate]; decide
theorem wit_ReturnPops : 0 < ({ State.reset with sp := 1 } : State).sp.val ∧ 0 < bounded.sp.val := by decide
theorem wit_CallPushes : ({ State.reset with sp := 15 } : State).sp.val < 16 ∧ State.reset.sp.val < 16 := by decide
theorem wit_StackErrors : State.reset.pc = 0x1FE + 2 ∧ State.reset.sp.val = 0 ∧ bounded.pc = 0x10FC + 2 ∧ bounded.sp.val = 16 := by
  decide
theorem wit_SameRegisterOperands : completes (.ldVxVy 15 15) State.reset ∧ completes (.orVxVy 1 1) State.reset ∧
    completes (.andVxVy 1 1) State.reset ∧ completes (.xorVxVy 1 1) State.reset ∧ completes (.addVxVy 15 15) State.reset ∧
    completes (.addVxVy 1 1) State.reset ∧ completes (.subVxVy 1 1) State.reset ∧ completes (.subnVxVy 15 15) State.reset :=
  ⟨⟨_, rfl⟩, ⟨_, rfl⟩, ⟨_, rfl⟩, ⟨_, rfl⟩, ⟨_, rfl⟩, ⟨_, rfl⟩, ⟨_, rfl⟩, ⟨_, rfl⟩⟩
/-- I and V1 whose sum is 0xFFFF, and one more. -/
theorem wit_AddToIndex :
    ({ State.reset with i := 0xFF00 } : State).i.toNat + ((State.reset.writeV 1 0xFF).readV 1).toNat ≤ 0xFFFF ∧
    0xFFFF < ({ State.reset with i := 0xFF01 } : State).i.toNat + ((State.reset.writeV 1 0xFF).readV 1).toNat ∧
    State.reset.pc = 0x1FE + 2 := by decide
theorem wit_DecimalDigitsStored : ({ State.reset with i := 0xFFD } : State).memCanonical ∧
    ({ State.reset with i := 0xFFD } : State).i.toNat + 2 ≤ 0xFFF := ⟨State.reset_memory_wf, by decide⟩
theorem wit_RegistersStored : ({ State.reset with i := 0xFF0 } : State).memCanonical ∧
    ({ State.reset with i := 0xFF0 } : State).i.toNat + (0xF : Nibble).toNat ≤ 0xFFF := ⟨State.reset_memory_wf, by decide⟩
theorem wit_RegistersLoaded : ({ State.reset with i := 0xFFF } : State).i.toNat + (0 : Nibble).toNat ≤ 0xFFF := by decide
theorem wit_AccessPastEndHalts : State.reset.pc = 0x1FE + 2 ∧
    0xFFF < ({ State.reset with i := 0xFFE } : State).i.toNat + 2 ∧
    0xFFF < ({ State.reset with i := 0xFF1 } : State).i.toNat + (0xF : Nibble).toNat ∧
    0 < (5 : Nibble).toNat ∧ 0xFFF < ({ State.reset with i := 0xFFC } : State).i.toNat + (5 : Nibble).toNat - 1 := by decide
theorem wit_StoreLoadRoundTrip : ∃ s t u : State, s.memCanonical ∧ s.i.toNat + (0xF : Nibble).toNat ≤ 0xFFF ∧
    exec (.stMemVx 0xF) s = .next t ∧ u ≠ t ∧ u.i = t.i ∧ ∀ a, u.readByte a = t.readByte a :=
  ⟨{ State.reset with i := 0xFF0 }, { State.reset with i := 0xFF0 }, { State.reset with i := 0xFF0, dt := 1 },
    State.reset_memory_wf, by decide, rfl, by decide, rfl, fun _ => rfl⟩
theorem wit_StoredWordIsFetched : ∃ s t u : State, s.memCanonical ∧ s.i.toNat + (0xF : Nibble).toNat ≤ 0xFFF ∧
    exec (.stMemVx 0xF) s = .next t ∧ (0xF : Nibble).toNat = (0xE : Nibble).toNat + 1 ∧ u.mem = t.mem ∧
    u.pc.toNat = s.i.toNat + (0xE : Nibble).toNat :=
  ⟨{ State.reset with i := 0xFF0 }, { State.reset with i := 0xFF0 }, { State.reset with pc := 0xFFE },
    State.reset_memory_wf, by decide, rfl, by decide, rfl, by decide⟩
theorem wit_SpriteDrawn : ((0 : Nibble).toNat = 0 ∨ ({ State.reset with i := 0xFFFF } : State).i.toNat + (0 : Nibble).toNat - 1 ≤ 0xFFF) ∧
    ((5 : Nibble).toNat = 0 ∨ ({ State.reset with i := 0xFFB } : State).i.toNat + (5 : Nibble).toNat - 1 ≤ 0xFFF) := by decide
/-- One pixel drawn at (0, 0) from a clear screen, and the state of its second draw. -/
theorem wit_CollisionAndRedraw : ∃ t : State,
    let s := startI [] 0x300 0x300 [0x80] 0
    ((1 : Nibble).toNat = 0 ∨ s.i.toNat + (1 : Nibble).toNat - 1 ≤ 0xFFF) ∧ exec (.drw 1 2 1) s = .next t ∧ t.i = s.i ∧
      t.readV 1 = s.readV 1 ∧ t.readV 2 = s.readV 2 ∧ (∀ a, t.readByte a = s.readByte a) ∧
      Framebuffer.pixel s.fb 0 0 = false ∧ Framebuffer.pixel t.fb 0 0 = true := by
  refine ⟨_, ?_, rfl, ?_, ?_, ?_, fun _ => rfl, ?_, ?_⟩ <;> decide
theorem wit_KeyTests : ({ State.reset.writeV 5 0xF with key := State.reset.key.set 0xF true } : State).key[15]? = some true ∧
    ((State.reset.writeV 5 0xF).readV 5).toNat = 15 ∧ State.reset.key[(State.reset.readV 5).toNat]? = some false ∧
    0xF < ((State.reset.writeV 5 0x10).readV 5).toNat ∧ State.reset.pc = 0x1FE + 2 := by decide
theorem wit_KeyWait : (State.reset.key.set 15 true)[15]? = some true ∧ (∀ j, j < 15 → (State.reset.key.set 15 true)[j]? = some false) ∧
    (State.reset.key.set 0 true)[0]? = some true ∧ (∀ k : Fin 16, State.reset.key[k] = false) := by decide

end Sys2Proof.Tests
end

section
/-! SUPPORT. Memory (20_memory.md): a loaded program reads back, and the word fetched is big-endian. -/

namespace Sys2Proof.Machine

/-- R61: a program that fits is stored, all of it, from `PROG_BASE` up. -/
theorem State.loadProgram_of_length_le (s : State) {program : List Byte} (h : program.length ≤ Config.progMax) :
    s.loadProgram program = .ok (s.storeBytes Config.progBase program) :=
  if_neg (Nat.not_lt.2 h)

/-- R61: a program that fits ends within memory, as `PROG_BASE + PROG_MAX` is the memory's size. -/
theorem progBase_add_length_le_memSize {program : List Byte} (h : program.length ≤ Config.progMax) :
    Config.progBase + program.length ≤ Config.memSize :=
  Nat.add_le_add_left h Config.progBase

/-- R50: the high byte of a word stands 8 bits above its low byte. -/
theorem wordOfBytes_toNat (hi lo : Byte) : (wordOfBytes hi lo).toNat = hi.toNat <<< 8 ||| lo.toNat :=
  BitVec.toNat_append hi lo

/-- Settles O27: the load stores the program within memory, and what a canonical memory stores it reads back. -/
theorem loadedProgramReadsBack : Obligations.LoadedProgramReadsBack := by
  intro s program hs hlen
  refine ⟨s.storeBytes Config.progBase program, s.loadProgram_of_length_le hlen, fun k hk => ?_⟩
  exact State.readByte_storeBytes_inside hs Config.progBase program (progBase_add_length_le_memSize hlen) k hk

/-- Settles O6: the fetched word is the word of the bytes at pc and pc + 1. -/
theorem fetchIsBigEndian : Obligations.FetchIsBigEndian := fun s =>
  wordOfBytes_toNat (s.readByte s.pc.toNat) (s.readByte (s.pc.toNat + 1))

end Sys2Proof.Machine
end

section
/-! SUPPORT. The cycle engine (40_cycle_engine.md): a fetch past the end of memory. -/

namespace Sys2Proof.Machine

/-- R80, R140: raising an error in a cycle whose outputs were cleared changes the run status and the outputs only. -/
theorem onlyChanges_clearOut_raise (s : State) (e : FatalError) :
    onlyChanges [.status, .out] s (s.clearOut.raise e) :=
  have hclear : onlyChanges [.status, .out] s s.clearOut :=
    onlyChanges_mono (onlyChanges_out s (Output.quiet .none)) (List.subset_cons_self _ _)
  onlyChanges_trans hclear (onlyChanges_raise s.clearOut e)

/-- Settles O7: the cycle raises the error of the fetch in the state with the outputs cleared. -/
theorem fetchPastEndHalts : Obligations.FetchPastEndHalts := fun s hrun hpc =>
  ⟨_, step_of_past_end hrun hpc, State.raise_status _ _, State.raise_out _ _, onlyChanges_clearOut_raise s _⟩

end Sys2Proof.Machine
end

section
/-! SUPPORT. Control flow (41_control_flow.md): the encodings of the jump and of the skips on an immediate, and what they do
to pc. -/

namespace Sys2Proof.Machine

/-! ### Encodings -/

/-- R73: an instruction whose word matches its own row of the opcode map and decodes back is encoded as that row says. -/
theorem encodedAs_row {i : Instr} (hrow : Laws.EncodeCovered.Statement i) (hdecode : decode (encode i) = .instr i) :
    encodedAs i i.row.value i.row.mask :=
  ⟨eq_of_beq hrow, hdecode⟩

theorem decode_encode_jp (nnn : Addr) : decode (encode (.jp nnn)) = .instr (.jp nnn) := by
  simp [encode, decode]

theorem decode_encode_seVxKk (x : Nibble) (kk : Byte) : decode (encode (.seVxKk x kk)) = .instr (.seVxKk x kk) := by
  simp [encode, decode]

theorem decode_encode_sneVxKk (x : Nibble) (kk : Byte) : decode (encode (.sneVxKk x kk)) = .instr (.sneVxKk x kk) := by
  simp [encode, decode]

/-! ### Jumps and skips -/

/-- R66: an address operand keeps its value when it is written to pc or I. -/
theorem zextAddr_toNat (nnn : Addr) : (zextAddr nnn).toNat = nnn.toNat :=
  BitVec.toNat_setWidth_of_le (by decide)

theorem State.skipIf_pc (s : State) (c : Bool) : (s.skipIf c).pc = if c then s.pc + 2 else s.pc := by
  rw [State.skipIf_eq, State.setPc_pc]

theorem onlyChanges_skipIf (s : State) (c : Bool) : onlyChanges [.pc] s (s.skipIf c) := by
  rw [State.skipIf_eq]
  exact onlyChanges_pc s _

/-- A skip if two bytes are equal advances pc by 2 more exactly when they are. -/
theorem State.skipIf_beq_pc (s : State) (a b : Byte) :
    (s.skipIf (a == b)).pc = if a = b then s.pc + 2 else s.pc := by
  simp only [State.skipIf_pc, beq_iff_eq]

/-- A skip if two bytes differ advances pc by 2 more exactly when they do. -/
theorem State.skipIf_bne_pc (s : State) (a b : Byte) :
    (s.skipIf (a != b)).pc = if a = b then s.pc else s.pc + 2 := by
  simp only [State.skipIf_pc, bne_iff_ne, ite_not]

/-- Settles O32: the jump writes its zero-extended address to pc. -/
theorem jumpSetsPc : Obligations.JumpSetsPc := by
  refine ⟨fun nnn => ?_, fun nnn s => ?_⟩
  · exact encodedAs_row (Laws.EncodeCovered.jp nnn) (decode_encode_jp nnn)
  · exact ⟨s.setPc (zextAddr nnn), rfl, zextAddr_toNat nnn, onlyChanges_pc s _⟩

/-- Settles O33: each skip is `State.skipIf` on its comparison of Vx with the immediate. -/
theorem skipOnImmediate : Obligations.SkipOnImmediate := by
  refine ⟨fun x kk => ⟨?_, ?_⟩, fun x kk s => ⟨?_, ?_⟩⟩
  · exact encodedAs_row (Laws.EncodeCovered.seVxKk x kk) (decode_encode_seVxKk x kk)
  · exact encodedAs_row (Laws.EncodeCovered.sneVxKk x kk) (decode_encode_sneVxKk x kk)
  · exact ⟨s.skipIf (s.readV x == kk), rfl, s.skipIf_beq_pc _ _, onlyChanges_skipIf s _⟩
  · exact ⟨s.skipIf (s.readV x != kk), rfl, s.skipIf_bne_pc _ _, onlyChanges_skipIf s _⟩

end Sys2Proof.Machine
end

section
/-! SUPPORT. The ALU (42_alu.md): load immediate, copy and add immediate, which write one register and no flag. -/

namespace Sys2Proof.Machine

theorem decode_encode_ldVxKk (x : Nibble) (kk : Byte) : decode (encode (.ldVxKk x kk)) = .instr (.ldVxKk x kk) := by
  simp [encode, decode]

theorem decode_encode_addVxKk (x : Nibble) (kk : Byte) : decode (encode (.addVxKk x kk)) = .instr (.addVxKk x kk) := by
  simp [encode, decode]

theorem decode_encode_ldVxVy (x y : Nibble) : decode (encode (.ldVxVy x y)) = .instr (.ldVxVy x y) := by
  simp [encode, decode, decodeFamily8]

theorem onlyChanges_writeV (s : State) (x : Nibble) (b : Byte) : onlyChanges [.v] s (s.writeV x b) :=
  onlyChanges_v s _

/-- R107: Vx after its 8-bit sum with the immediate is written, and every other register, as numbers. -/
theorem State.readV_writeV_add_toNat (s : State) (x : Nibble) (kk : Byte) (k : Nibble) :
    ((s.writeV x (s.readV x + kk)).readV k).toNat =
      if k = x then ((s.readV x).toNat + kk.toNat) % 256 else (s.readV k).toNat := by
  rw [State.readV_writeV, apply_ite BitVec.toNat, BitVec.toNat_add]

/-- Settles O36: each of the two writes Vx, the one with the immediate and the other with the old Vy. -/
theorem loadAndCopy : Obligations.LoadAndCopy := by
  refine ⟨fun x kk => ?_, fun x y => ?_, fun x y kk s => ⟨?_, ?_⟩⟩
  · exact encodedAs_row (Laws.EncodeCovered.ldVxKk x kk) (decode_encode_ldVxKk x kk)
  · exact encodedAs_row (Laws.EncodeCovered.ldVxVy x y) (decode_encode_ldVxVy x y)
  · exact ⟨s.writeV x kk, rfl, s.readV_writeV x kk, onlyChanges_writeV s x kk⟩
  · exact ⟨s.writeV x (s.readV y), rfl, s.readV_writeV x _, onlyChanges_writeV s x _⟩

/-- Settles O37: the one write is that of the 8-bit sum to Vx, so VF changes only as the destination. -/
theorem addImmediateNoFlag : Obligations.AddImmediateNoFlag := by
  refine ⟨fun x kk => ?_, fun x kk s => ?_⟩
  · exact encodedAs_row (Laws.EncodeCovered.addVxKk x kk) (decode_encode_addVxKk x kk)
  · exact ⟨s.writeV x (s.readV x + kk), rfl, s.readV_writeV_add_toNat x kk, onlyChanges_writeV s x _⟩

end Sys2Proof.Machine
end

section
/-! SUPPORT. The address register (43_index_memory.md): `Annn` and `Fx29`, which write I and nothing else. -/

namespace Sys2Proof.Machine

theorem decode_encode_ldI (nnn : Addr) : decode (encode (.ldI nnn)) = .instr (.ldI nnn) := by
  simp [encode, decode]

theorem decode_encode_ldF (x : Nibble) : decode (encode (.ldF x)) = .instr (.ldF x) := by
  simp [encode, decode, decodeFamilyF]

theorem onlyChanges_setI (s : State) (a : Word) : onlyChanges [.i] s (s.setI a) :=
  onlyChanges_i s a

/-- R120: the low-nibble mask is `2 ^ 4 - 1`, so it takes a remainder. -/
theorem and_lowNibble_toNat (b : Byte) : (b &&& 0x0F#8).toNat = b.toNat % 16 := by
  rw [BitVec.toNat_and]
  exact Nat.and_two_pow_sub_one_eq_mod b.toNat 4

/-- R120: the font starts at 0 and the last glyph at 75, so the address is exact in 16 bits. -/
theorem glyphAddr_toNat (b : Byte) : (glyphAddr b).toNat = 5 * (b.toNat % 16) := by
  have hbound : 5 * (b.toNat % 16) < 2 ^ 16 := by omega
  rw [glyphAddr, and_lowNibble_toNat, Config.fontBase, Nat.zero_add, BitVec.toNat_ofNat, Nat.mod_eq_of_lt hbound]

/-- Settles O45: the address operand, zero-extended, is written to I. -/
theorem loadIndex : Obligations.LoadIndex := by
  refine ⟨fun nnn => ?_, fun nnn s => ?_⟩
  · exact encodedAs_row (Laws.EncodeCovered.ldI nnn) (decode_encode_ldI nnn)
  · exact ⟨s.setI (zextAddr nnn), rfl, zextAddr_toNat nnn, onlyChanges_setI s _⟩

/-- Settles O47: the address of the glyph of Vx is written to I. -/
theorem glyphAddress : Obligations.GlyphAddress := by
  refine ⟨fun x => ?_, fun x s => ?_⟩
  · exact encodedAs_row (Laws.EncodeCovered.ldF x) (decode_encode_ldF x)
  · exact ⟨s.setI (glyphAddr (s.readV x)), rfl, glyphAddr_toNat (s.readV x), onlyChanges_setI s _⟩

end Sys2Proof.Machine
end

section
/-! SUPPORT. The decoder and the encoder (30_encoding.md): the round trip, the opcode map, the unknown words and the
formats. -/

namespace Sys2Proof

/-! ### Round trip -/

theorem decode_encode (i : Instr) : decode (encode i) = .instr i := by
  cases i with
  | cls | ret => rfl
  | ldVxVy | orVxVy | andVxVy | xorVxVy | addVxVy | subVxVy | shrVx | subnVxVy | shlVx =>
    simp [encode, decode, decodeFamily8]
  | skp | sknp => simp [encode, decode, decodeFamilyE]
  | ldVxDt | ldVxK | ldDtVx | ldStVx | addI | ldF | ldB | stMemVx | ldMemVx => simp [encode, decode, decodeFamilyF]
  | _ => simp [encode, decode]

/-- R50, R51: the bytes of a word as memory holds them decode to what the word decodes to. -/
theorem decodeBytes_bytesOfWord (w : Word) (rest : List Byte) :
    decodeBytes (bytesOfWord w ++ rest) = .word (decode w) rest := by
  simp [bytesOfWord, decodeBytes]

/-- Settles O2: the decoder reads back the fields that each format of the encoder wrote. -/
theorem decodeEncodeRoundTrip : Obligations.DecodeEncodeRoundTrip := fun i =>
  ⟨decode_encode i, fun rest => by rw [decodeBytes_bytesOfWord, decode_encode]⟩

/-- Settles O1: the listed words are closed, so the decoder runs on each. -/
theorem tableWordsDecode : Obligations.TableWordsDecode := by
  unfold Obligations.TableWordsDecode
  decide

/-! ### The opcode map (R73) -/

theorem OpcodeRow.covers_iff (v m w : Word) : (OpcodeRow.mk v m).covers w ↔ w &&& m = v := beq_iff_eq

/-- A row with the whole word as its mask covers that word. -/
theorem covers_wordRow (v w : Word) : (OpcodeRow.mk v 0xFFFF#16).covers w ↔ w = v := by
  have hand : w &&& 0xFFFF#16 = w := BitVec.and_allOnes
  rw [OpcodeRow.covers_iff, hand]

/-- A row with no sub-selector covers the words of its family. -/
theorem covers_familyRow {v : Word} (hv : v &&& 0xF000#16 = v) (w : Word) :
    (OpcodeRow.mk v 0xF000#16).covers w ↔ fieldFamily w = v.extractLsb' 12 4 := by
  rw [OpcodeRow.covers_iff, and_familyMask]
  constructor
  · rintro rfl
    exact (fieldFamily_wordA _ _).symm
  · rintro hf
    rw [hf]
    exact (and_familyMask v).symm.trans hv

/-- A row of family 8 covers the words of its family and low nibble. -/
theorem covers_aluRow {v : Word} (hv : v &&& 0xF00F#16 = v) (w : Word) :
    (OpcodeRow.mk v 0xF00F#16).covers w ↔ fieldFamily w = v.extractLsb' 12 4 ∧ fieldN w = v.extractLsb' 0 4 := by
  rw [OpcodeRow.covers_iff, and_aluMask]
  constructor
  · rintro rfl
    exact ⟨(fieldFamily_wordXYN _ _ _ _).symm, (fieldN_wordXYN _ _ _ _).symm⟩
  · rintro ⟨hf, hn⟩
    rw [hf, hn]
    exact (and_aluMask v).symm.trans hv

/-- A row of family E or F covers the words of its family and low byte. -/
theorem covers_selectorRow {v : Word} (hv : v &&& 0xF0FF#16 = v) (w : Word) :
    (OpcodeRow.mk v 0xF0FF#16).covers w ↔ fieldFamily w = v.extractLsb' 12 4 ∧ fieldKk w = v.extractLsb' 0 8 := by
  rw [OpcodeRow.covers_iff, and_selectorMask]
  constructor
  · rintro rfl
    exact ⟨(fieldFamily_wordXK _ _ _).symm, (fieldKk_wordXK _ _ _).symm⟩
  · rintro ⟨hf, hk⟩
    rw [hf, hk]
    exact (and_selectorMask v).symm.trans hv

/-- The row of the opcode map that a decoding stands for, if it is an instruction's. -/
def Decoded.row? : Decoded → Option OpcodeRow
  | .instr i => some i.row
  | .unknownOpcode _ => none

@[simp] theorem Decoded.row?_instr (i : Instr) : (Decoded.instr i).row? = some i.row := rfl

@[simp] theorem Decoded.row?_unknownOpcode (w : Word) : (Decoded.unknownOpcode w).row? = none := rfl

/-- A word that a row of the map matches decodes to an instruction of that row: the row fixes what the decoder
looks at. -/
theorem decode_row?_of_covers (w : Word) : ∀ r ∈ opcodeMap, r.covers w → (decode w).row? = some r := by
  simp only [opcodeMap, opcodeMapLow, opcodeMapAlu, opcodeMapHigh, List.cons_append, List.nil_append,
    List.forall_mem_cons, List.not_mem_nil, false_imp_iff, implies_true, and_true]
  refine ⟨?cls, ?ret, ?_⟩
  case cls => exact fun h => by rw [(covers_wordRow _ w).1 h]; rfl
  case ret => exact fun h => by rw [(covers_wordRow _ w).1 h]; rfl
  and_intros
  all_goals
    intro h
    simp only [BitVec.ofNat_eq_ofNat, covers_familyRow, covers_aluRow, covers_selectorRow, BitVec.reduceAnd] at h
    simp only [decode, decodeFamily8, decodeFamilyE, decodeFamilyF, h]
    rfl

/-- Where each outcome of a selection has a row that matches the word, so has the selection. -/
theorem row_covers_ite {w : Word} {p : Prop} [Decidable p] {d e : Decoded} (hd : p → ∀ r ∈ d.row?, r.covers w)
    (he : ∀ r ∈ e.row?, r.covers w) : ∀ r ∈ (if p then d else e).row?, r.covers w := by
  split
  · next h => exact hd h
  · exact he

theorem decodeFamily0_row_covers {w : Word} : ∀ r ∈ (decodeFamily0 w).row?, r.covers w := by
  unfold decodeFamily0
  repeat' refine row_covers_ite (fun h => ?_) ?_
  all_goals simp [Instr.row, covers_wordRow, *]

theorem decodeFamily8_row_covers {w : Word} (hf : fieldFamily w = 8) : ∀ r ∈ (decodeFamily8 w).row?, r.covers w := by
  unfold decodeFamily8
  repeat' refine row_covers_ite (fun h => ?_) ?_
  all_goals simp [Instr.row, covers_aluRow, *]

theorem decodeFamilyE_row_covers {w : Word} (hf : fieldFamily w = 14) : ∀ r ∈ (decodeFamilyE w).row?, r.covers w := by
  unfold decodeFamilyE
  repeat' refine row_covers_ite (fun h => ?_) ?_
  all_goals simp [Instr.row, covers_selectorRow, *]

theorem decodeFamilyF_row_covers {w : Word} (hf : fieldFamily w = 15) : ∀ r ∈ (decodeFamilyF w).row?, r.covers w := by
  unfold decodeFamilyF
  repeat' refine row_covers_ite (fun h => ?_) ?_
  all_goals simp [Instr.row, covers_selectorRow, *]

/-- The row of the instruction a word decodes to matches the word. -/
theorem decode_row_covers (w : Word) : ∀ r ∈ (decode w).row?, r.covers w := by
  obtain ⟨⟨f⟩, hf⟩ : ∃ f, fieldFamily w = f := ⟨_, rfl⟩
  fin_cases f <;> simp only [decode, hf]
  -- The goals stand in the order of the families, from 0; those with sub-selectors go first, the last of them foremost.
  on_goal 16 => exact decodeFamilyF_row_covers hf
  on_goal 15 => exact decodeFamilyE_row_covers hf
  on_goal 9 => exact decodeFamily8_row_covers hf
  on_goal 1 => exact decodeFamily0_row_covers
  all_goals simp [Instr.row, covers_familyRow, hf]

theorem Instr.row_mem_opcodeMap (i : Instr) : i.row ∈ opcodeMap := by
  cases i <;> exact List.mem_of_elem_eq_true rfl

theorem opcodeMap_nodup : opcodeMap.Nodup := by decide

/-- R72: the only row that matches a word that decodes is its instruction's. -/
theorem filter_covers_eq_row {w : Word} {i : Instr} (h : decode w = .instr i) :
    opcodeMap.filter (·.covers w) = [i.row] := by
  have hcovers : ∀ r ∈ opcodeMap, r.covers w = (r == i.row) := fun r hr => by
    rw [Bool.eq_iff_iff, beq_iff_eq]
    constructor
    · intro hw
      simpa [h, eq_comm] using decode_row?_of_covers w r hr hw
    · rintro rfl
      exact decode_row_covers w _ (by simp [h])
  calc opcodeMap.filter (·.covers w)
      = opcodeMap.filter (· == i.row) := List.filter_congr hcovers
    _ = List.replicate (opcodeMap.count i.row) i.row := List.filter_beq i.row
    _ = [i.row] := by rw [List.count_eq_one_of_mem opcodeMap_nodup i.row_mem_opcodeMap]; rfl

/-- Settles O3: the row of an instruction matches the words that decode to it, and no other row does. -/
theorem decoderAgreesWithOpcodeMap : Obligations.DecoderAgreesWithOpcodeMap := by
  refine ⟨rfl, fun w => ?_⟩
  cases hd : decode w with
  | instr i => exact .inl ⟨i, rfl, filter_covers_eq_row hd⟩
  | unknownOpcode v =>
    obtain rfl := decode_unknown hd
    refine .inr ⟨rfl, fun r hr => Bool.eq_false_iff.2 fun hw => ?_⟩
    simpa [hd] using decode_row?_of_covers v r hr hw

/-- R73: every instruction is encoded as its row of the opcode map says. -/
theorem encodedAs_own_row (i : Instr) : Machine.encodedAs i i.row.value i.row.mask := by
  have hrow : i.row.covers (encode i) := decode_row_covers (encode i) _ (by simp [decode_encode])
  exact Machine.encodedAs_row hrow (decode_encode i)

/-! ### Unknown words (R70) -/

/-- A selector that gives an instruction rejects the word only where it does not match. -/
theorem ite_instr_eq_unknown_iff {p : Prop} [Decidable p] {i : Instr} {d : Decoded} {w : Word} :
    (if p then .instr i else d) = .unknownOpcode w ↔ ¬ p ∧ d = .unknownOpcode w := by
  split <;> simp [*]

theorem decodeFamily0_unknown_iff (w : Word) :
    decodeFamily0 w = .unknownOpcode w ↔ w.toNat ≠ 0x00E0 ∧ w.toNat ≠ 0x00EE := by
  simp [decodeFamily0, ite_instr_eq_unknown_iff, ← BitVec.toNat_inj]

theorem decodeFamily8_unknown_iff (w : Word) :
    decodeFamily8 w = .unknownOpcode w ↔ fieldN w ∉ [0x0, 0x1, 0x2, 0x3, 0x4, 0x5, 0x6, 0x7, 0xE] := by
  simp [decodeFamily8, ite_instr_eq_unknown_iff]

theorem decodeFamilyE_unknown_iff (w : Word) :
    decodeFamilyE w = .unknownOpcode w ↔ fieldKk w ∉ [0x9E, 0xA1] := by
  simp [decodeFamilyE, ite_instr_eq_unknown_iff]

theorem decodeFamilyF_unknown_iff (w : Word) :
    decodeFamilyF w = .unknownOpcode w ↔ fieldKk w ∉ [0x07, 0x0A, 0x15, 0x18, 0x1E, 0x29, 0x33, 0x55, 0x65] := by
  simp [decodeFamilyF, ite_instr_eq_unknown_iff]

/-- Only the four families with sub-selectors have unknown words. -/
theorem decode_unknown_iff (w : Word) : decode w = .unknownOpcode w ↔
    (fieldFamily w = 0x0 ∧ decodeFamily0 w = .unknownOpcode w) ∨
    (fieldFamily w = 0x8 ∧ decodeFamily8 w = .unknownOpcode w) ∨
    (fieldFamily w = 0xE ∧ decodeFamilyE w = .unknownOpcode w) ∨
    (fieldFamily w = 0xF ∧ decodeFamilyF w = .unknownOpcode w) := by
  obtain ⟨⟨f⟩, hf⟩ : ∃ f, fieldFamily w = f := ⟨_, rfl⟩
  fin_cases f <;> simp only [decode, hf] <;> simp

theorem fieldFamily_eq_iff (w : Word) (f : Nibble) : fieldFamily w = f ↔ w.toNat / 0x1000 = f.toNat := by
  rw [← BitVec.toNat_inj, fieldFamily_toNat]

/-- R70: the seven low nibbles family 8 does not use are those that are not its selectors. -/
theorem fieldN_unused_iff (w : Word) : fieldN w ∉ [0x0, 0x1, 0x2, 0x3, 0x4, 0x5, 0x6, 0x7, 0xE] ↔
    w.toNat % 0x10 ∈ [0x8, 0x9, 0xA, 0xB, 0xC, 0xD, 0xF] := by
  have hall : ∀ n : Nibble, n ∉ [0x0, 0x1, 0x2, 0x3, 0x4, 0x5, 0x6, 0x7, 0xE] ↔
    n.toNat ∈ [0x8, 0x9, 0xA, 0xB, 0xC, 0xD, 0xF] := by decide
  rw [hall, fieldN_toNat]

theorem fieldKk_mem_iff (w : Word) (ks : List Byte) : fieldKk w ∈ ks ↔ w.toNat % 0x100 ∈ ks.map BitVec.toNat := by
  rw [← fieldKk_toNat, List.mem_map_of_injective (fun _ _ => BitVec.eq_of_toNat_eq)]

/-- Settles O4: the families' sub-selectors, read as numbers. -/
theorem unknownWords : Obligations.UnknownWords := by
  intro w
  have hlt : w.toNat / 0x1000 = 0 ↔ w.toNat < 0x1000 := by omega
  rw [decode_unknown_iff, decodeFamily0_unknown_iff, decodeFamily8_unknown_iff, decodeFamilyE_unknown_iff,
    decodeFamilyF_unknown_iff, fieldN_unused_iff, fieldKk_mem_iff, fieldKk_mem_iff]
  simp only [fieldFamily_eq_iff]
  rw [← hlt]
  rfl

/-! ### Formats (R65, R77) -/

theorem wordA_toNat (f : Nibble) (nnn : Addr) : (wordA f nnn).toNat = f.toNat <<< 12 ||| nnn.toNat :=
  BitVec.toNat_append f nnn

theorem wordXK_toNat (f x : Nibble) (kk : Byte) :
    (wordXK f x kk).toNat = f.toNat <<< 12 ||| x.toNat <<< 8 ||| kk.toNat := by
  rw [wordXK, BitVec.toNat_append, BitVec.toNat_append, Nat.shiftLeft_or_distrib, ← Nat.shiftLeft_add]

theorem wordXYN_toNat (f x y n : Nibble) :
    (wordXYN f x y n).toNat = f.toNat <<< 12 ||| x.toNat <<< 8 ||| y.toNat <<< 4 ||| n.toNat := by
  simp only [wordXYN, BitVec.toNat_append, Nat.shiftLeft_or_distrib, ← Nat.shiftLeft_add]

theorem wordXYN_zero_toNat (f x y : Nibble) :
    (wordXYN f x y 0).toNat = f.toNat <<< 12 ||| x.toNat <<< 8 ||| y.toNat <<< 4 := by
  rw [wordXYN_toNat]
  exact Nat.or_zero _

/-- Settles O5: each format's word is its fields put together. -/
theorem encoderFormats : Obligations.EncoderFormats := by
  intro x y n kk nnn
  refine ⟨rfl, rfl, ?_⟩
  refine ⟨wordA_toNat _ _, wordA_toNat _ _, wordA_toNat _ _, wordA_toNat _ _, ?_⟩
  refine ⟨wordXK_toNat _ _ _, wordXK_toNat _ _ _, wordXK_toNat _ _ _, wordXK_toNat _ _ _, wordXK_toNat _ _ _, ?_⟩
  refine ⟨wordXYN_zero_toNat _ _ _, wordXYN_zero_toNat _ _ _, ?_⟩
  refine ⟨wordXYN_toNat _ _ _ _, wordXYN_toNat _ _ _ _, wordXYN_toNat _ _ _ _, wordXYN_toNat _ _ _ _,
    wordXYN_toNat _ _ _ _, wordXYN_toNat _ _ _ _, wordXYN_toNat _ _ _ _, wordXYN_toNat _ _ _ _,
    wordXYN_toNat _ _ _ _, wordXYN_toNat _ _ _ _, ?_⟩
  exact ⟨wordXK_toNat _ _ _, wordXK_toNat _ _ _, wordXK_toNat _ _ _, wordXK_toNat _ _ _, wordXK_toNat _ _ _,
    wordXK_toNat _ _ _, wordXK_toNat _ _ _, wordXK_toNat _ _ _, wordXK_toNat _ _ _, wordXK_toNat _ _ _,
    wordXK_toNat _ _ _⟩

end Sys2Proof
end

section
/-! SUPPORT. The frames of the instructions (10_state.md R22 to R34). -/

namespace Sys2Proof.Machine

theorem onlyChanges_writeResultFlag (s : State) (x : Nibble) (r f : Byte) : onlyChanges [.v] s (s.writeResultFlag x r f) :=
  onlyChanges_v s _

theorem onlyChanges_writeVs (s : State) (bs : List Byte) : onlyChanges [.v] s (s.writeVs bs) :=
  onlyChanges_v s _

theorem onlyChanges_storeBytes (s : State) (a : Nat) (bs : List Byte) : onlyChanges [.mem] s (s.storeBytes a bs) :=
  onlyChanges_mem s _

/-- An instruction with a check changes what a raise changes, or what its effect changes. -/
theorem onlyChanges_of_raiseOr {c : Option FatalError} {s t u : State} {ps qs : List Part} (h : raiseOr c s t = .next u)
    (ht : onlyChanges ps s t) (hps : ps ⊆ qs) (hraise : [.status, .out] ⊆ qs) : onlyChanges qs s u := by
  rcases raiseOr_cases h with ⟨e, -, rfl⟩ | ⟨-, rfl⟩
  · exact onlyChanges_mono (onlyChanges_raise s e) hraise
  · exact onlyChanges_mono ht hps

/-- Settles O23: each instruction by the frame of its update, or of a raise. -/
theorem execChangesOnly : Obligations.ExecChangesOnly := by
  intro i s t h
  cases i with
  | cls => cases h; exact onlyChanges_fb s _ _
  | ret =>
    rcases execRet_cases s with ⟨_, hret⟩ | ⟨_, hret⟩ <;> cases hret.symm.trans h
    · exact onlyChanges_mono (onlyChanges_pop s _ _) (by simp [mayChange])
    · exact onlyChanges_mono (onlyChanges_raise s _) (by simp [mayChange])
  | call nnn =>
    rcases execCall_cases nnn s with ⟨_, hcall⟩ | ⟨_, hcall⟩ <;> cases hcall.symm.trans h
    · exact onlyChanges_mono (onlyChanges_stack s _ _ _) (by simp [mayChange])
    · exact onlyChanges_mono (onlyChanges_raise s _) (by simp [mayChange])
  | ldVxK x =>
    rcases execLdVxK_cases x s with ⟨_, _, hkey⟩ | ⟨_, hkey⟩ <;> cases hkey.symm.trans h
    · exact onlyChanges_mono (onlyChanges_writeV s x _) (by simp [mayChange])
    · exact onlyChanges_mono (onlyChanges_pc s _) (by simp [mayChange])
  | jp | jpV0 => cases h; exact onlyChanges_pc s _
  | seVxKk | sneVxKk | seVxVy | sneVxVy => cases h; exact onlyChanges_skipIf s _
  | ldVxKk | addVxKk | ldVxVy | orVxVy | andVxVy | xorVxVy | ldVxDt => cases h; exact onlyChanges_writeV s _ _
  | addVxVy | subVxVy | shrVx | subnVxVy | shlVx => cases h; exact onlyChanges_writeResultFlag s _ _ _
  | ldI | ldF => cases h; exact onlyChanges_setI s _
  | rnd => cases h; exact onlyChanges_draw s _ _
  | ldDtVx => cases h; exact onlyChanges_dt s _
  | ldStVx => cases h; exact onlyChanges_st s _
  | drw => exact onlyChanges_of_raiseOr h (onlyChanges_afterBlit s _) (by simp [mayChange]) (by simp [mayChange])
  | skp | sknp => exact onlyChanges_of_raiseOr h (onlyChanges_skipIf s _) (by simp [mayChange]) (by simp [mayChange])
  | addI => exact onlyChanges_of_raiseOr h (onlyChanges_setI s _) (by simp [mayChange]) (by simp [mayChange])
  | ldB | stMemVx =>
    exact onlyChanges_of_raiseOr h (onlyChanges_storeBytes s _ _) (by simp [mayChange]) (by simp [mayChange])
  | ldMemVx => exact onlyChanges_of_raiseOr h (onlyChanges_writeVs s _) (by simp [mayChange]) (by simp [mayChange])

/-! ### The V registers one by one -/

theorem State.readV_writeV_ne (s : State) {x k : Nibble} (b : Byte) (h : k ≠ x) : (s.writeV x b).readV k = s.readV k := by
  rw [State.readV_writeV, if_neg h]

theorem State.readV_writeResultFlag_ne (s : State) {x k : Nibble} (r f : Byte) (hx : k ≠ x) (hf : k ≠ 15) :
    (s.writeResultFlag x r f).readV k = s.readV k := by
  rw [State.readV_writeResultFlag, if_neg hf, if_neg hx]

theorem State.readV_afterBlit_ne (s : State) {k : Nibble} (a : Blit) (h : k ≠ 15) :
    (s.afterBlit a).readV k = s.readV k := by
  rw [State.readV_afterBlit, if_neg h]

/-- Settles O24: an instruction that may not change the registers by its frame, each other one by the read of its update. -/
theorem execRegisterFrame : Obligations.ExecRegisterFrame := by
  intro i s t k h hk
  have hframe : Part.v ∉ mayChange i → t.readV k = s.readV k := fun hv => execChangesOnly i s t h .v hv k
  cases i with
  | ldVxKk | addVxKk | ldVxVy | orVxVy | andVxVy | xorVxVy | ldVxDt | rnd =>
    cases h
    exact State.readV_writeV_ne _ _ (beq_eq_false_iff_ne.1 hk)
  | addVxVy | subVxVy | shrVx | subnVxVy | shlVx =>
    cases h
    obtain ⟨hx, hf⟩ := Bool.or_eq_false_iff.1 hk
    exact s.readV_writeResultFlag_ne _ _ (beq_eq_false_iff_ne.1 hx) (beq_eq_false_iff_ne.1 hf)
  | drw =>
    rcases raiseOr_cases h with ⟨e, -, rfl⟩ | ⟨-, rfl⟩
    · rfl
    · exact s.readV_afterBlit_ne _ (beq_eq_false_iff_ne.1 hk)
  | ldVxK x =>
    rcases execLdVxK_cases x s with ⟨_, _, hkey⟩ | ⟨_, hkey⟩ <;> cases hkey.symm.trans h
    · exact s.readV_writeV_ne _ (beq_eq_false_iff_ne.1 hk)
    · rfl
  | ldMemVx x =>
    rcases raiseOr_cases h with ⟨e, -, rfl⟩ | ⟨-, rfl⟩
    · rfl
    · rw [State.readV_writeVs, dif_neg]
      simpa [mayWriteV, Nat.lt_succ_iff] using hk
  | _ => exact hframe (by simp [mayChange])

end Sys2Proof.Machine
end

section
/-! SUPPORT. What a step can do, as one inductive predicate, and the statements about every cycle
(40_cycle_engine.md). -/

namespace Sys2Proof.Machine

/-! ### The timer step (60_exceptions.md R147, R148) -/

section
variable (s : State)

@[simp] theorem State.timerStep_mem : s.timerStep.mem = s.mem := by rw [State.timerStep_eq]
@[simp] theorem State.timerStep_pc : s.timerStep.pc = s.pc := by rw [State.timerStep_eq]
@[simp] theorem State.timerStep_stack : s.timerStep.stack = s.stack := by rw [State.timerStep_eq]
@[simp] theorem State.timerStep_key : s.timerStep.key = s.key := by rw [State.timerStep_eq]
@[simp] theorem State.timerStep_status : s.timerStep.status = s.status := by rw [State.timerStep_eq]
@[simp] theorem State.timerStep_readV (k : Nibble) : s.timerStep.readV k = s.readV k := by rw [State.timerStep_eq]; rfl
@[simp] theorem State.timerStep_err : s.timerStep.out.err = s.out.err := by rw [State.timerStep_eq]
theorem State.timerStep_out :
    s.timerStep.out = { s.out with tone := s.out.tone || decide (2 ≤ s.st.toNat) } := by rw [State.timerStep_eq]
theorem State.timerStep_tone : s.timerStep.out.tone = (s.out.tone || decide (2 ≤ s.st.toNat)) := by
  rw [State.timerStep_out]

/-- A timer one less, not below 0. -/
theorem timer_pred_toNat (b : Byte) : (BitVec.ofNat 8 (b.toNat - 1)).toNat = b.toNat - 1 := by
  have := b.isLt
  rw [BitVec.toNat_ofNat]
  omega

@[simp] theorem State.timerStep_dt_toNat : s.timerStep.dt.toNat = s.dt.toNat - 1 := by
  rw [State.timerStep_eq]
  exact timer_pred_toNat s.dt

@[simp] theorem State.timerStep_st_toNat : s.timerStep.st.toNat = s.st.toNat - 1 := by
  rw [State.timerStep_eq]
  exact timer_pred_toNat s.st

end

/-! ### The states a step can answer -/

theorem fetches.running {s : State} {i : Instr} (hf : fetches s i) : s.status = .running := hf.1

theorem fetches.pc_le {s : State} {i : Instr} (hf : fetches s i) : s.pc.toNat ≤ 0xFFE := hf.2.1

/-- What a cycle can do: report on a halted machine, halt on a fetch past the end, report an unknown word, halt on an error
of the instruction fetched, or execute it and step the timers. -/
inductive StepsTo (s : State) : State → Prop
  | halted (e : FatalError) (hs : s.status = .halted e) : StepsTo s (s.reportHalted e)
  | pastEnd (e : FatalError) (hrun : s.status = .running) : StepsTo s (s.clearOut.raise e)
  | unknown (w : Word) (hrun : s.status = .running) (hpc : s.pc.toNat ≤ 0xFFE) :
      StepsTo s (s.fetched.reportUnknown s.pc w).timerStep
  | raised (i : Instr) (e : FatalError) (hf : fetches s i) (hexec : exec i s.fetched = .next (s.fetched.raise e)) :
      StepsTo s (s.fetched.raise e)
  | executed (i : Instr) (u : State) (hf : fetches s i) (hexec : exec i s.fetched = .next u) (hrun : u.status = .running)
      (herr : u.out.err = .none) (htone : u.out.tone = false) : StepsTo s u.timerStep

theorem step_stepsTo (s : State) : ∃ t, step s = .next t ∧ StepsTo s t := by
  rcases step_cases s with ⟨e, hs, hstep⟩ | ⟨hrun, -, hstep⟩ | ⟨hrun, hpc, -, hstep⟩ | ⟨i, hf, -⟩
  · exact ⟨_, hstep, .halted e hs⟩
  · exact ⟨_, hstep, .pastEnd _ hrun⟩
  · exact ⟨_, hstep, .unknown _ hrun hpc⟩
  · rcases step_of_fetches_cases hf with ⟨e, hexec, hstep⟩ | ⟨u, hexec, hrun, herr, htone, hstep⟩
    · exact ⟨_, hstep, .raised i e hf hexec⟩
    · exact ⟨_, hstep, .executed i u hf hexec hrun herr htone⟩

theorem stepsTo_of_step {s t : State} (h : step s = .next t) : StepsTo s t := by
  obtain ⟨u, hstep, hu⟩ := step_stepsTo s
  cases hstep.symm.trans h
  exact hu

/-- Settles O12: one of the five cases always applies. -/
theorem stepAlwaysAnswers : Obligations.StepAlwaysAnswers := fun s =>
  (step_stepsTo s).imp fun _ h => h.1

/-! ### Frames of the cycle -/

/-- Settles O25: the fetch, the instruction and the timer step, each by its own frame. -/
theorem cycleChangesOnly : Obligations.CycleChangesOnly := by
  intro i s t hf h
  have hfetch : onlyChanges (.pc :: .dt :: .st :: .out :: mayChange i) s s.fetched :=
    onlyChanges_mono (onlyChanges_fetched s) (by simp)
  have hexec : ∀ u, exec i s.fetched = .next u → onlyChanges (.pc :: .dt :: .st :: .out :: mayChange i) s u :=
    fun u hu => onlyChanges_trans hfetch (onlyChanges_mono (execChangesOnly i _ u hu) (by intro p hp; simp [hp]))
  rcases step_of_fetches_cases hf with ⟨e, hu, hstep⟩ | ⟨u, hu, -, -, -, hstep⟩ <;> cases hstep.symm.trans h
  · exact hexec _ hu
  · exact onlyChanges_trans (hexec u hu) (onlyChanges_mono (onlyChanges_timerStep u) (by simp))

theorem key_notMem_mayChange (i : Instr) : Part.key ∉ mayChange i := by
  cases i <;> simp [mayChange]

/-- Settles O26: no instruction may change the key latch, and no other part of a cycle does. -/
theorem keyLatchConstant : Obligations.KeyLatchConstant := by
  intro s t h
  cases stepsTo_of_step h with
  | halted | pastEnd | raised => rfl
  | unknown => rw [State.timerStep_key]; rfl
  | executed i u hf hexec =>
    rw [State.timerStep_key]
    exact execChangesOnly i s.fetched u hexec .key (key_notMem_mayChange i)

/-! ### Errors -/

/-- Settles O10: an instruction that halts a running machine has raised, and its cycle ends there. -/
theorem fatalErrorWritesNothing : Obligations.FatalErrorWritesNothing := by
  constructor
  · intro i s t e hrun h ht
    rcases exec_cases i s with ⟨e', hraise⟩ | ⟨u, hu, hstatus, -, -⟩
    · cases hraise.symm.trans h
      cases ht
      exact ⟨rfl, onlyChanges_raise s _⟩
    · cases hu.symm.trans h
      rw [hstatus, hrun] at ht
      cases ht
  · intro i s t e hf h ht
    rcases step_of_fetches_cases hf with ⟨e', -, hraise⟩ | ⟨u, -, hrun, -, -, hstep⟩
    · cases hraise.symm.trans h
      cases ht
      exact ⟨rfl, rfl, onlyChanges_trans (onlyChanges_mono (onlyChanges_fetched s) (by simp))
        (onlyChanges_mono (onlyChanges_raise s.fetched _) (by simp))⟩
    · cases hstep.symm.trans h
      rw [State.timerStep_status, hrun] at ht
      cases ht

/-- Settles O11: a halted machine only reports, and the report made twice is the report. -/
theorem haltedMachineStays : Obligations.HaltedMachineStays := by
  constructor
  · intro s e hs
    exact ⟨s.reportHalted e, step_of_halted hs, rfl, onlyChanges_out s _, step_of_halted (s := s.reportHalted e) hs⟩
  · intro s e hs hagree
    have hout : s.out = Output.quiet (.fatal e) := by simpa [State.statusAgrees, hs] using hagree
    rw [step_of_halted hs, State.reportHalted, ← hout]

/-! ### Timers over a cycle -/

/-- Settles O13: the step writes DT less one, not below 0, and nothing else. -/
theorem delayTimerStep : Obligations.DelayTimerStep := by
  intro s
  have hdt : s.stepDelay.dt.toNat = s.dt.toNat - 1 := by
    rw [State.stepDelay_eq]
    exact timer_pred_toNat s.dt
  refine ⟨fun h => by omega, fun h => BitVec.eq_of_toNat_eq ?_, ?_⟩
  · rw [hdt, h]
    rfl
  · rw [State.stepDelay_eq]
    exact onlyChanges_dt s _

/-- Settles O14: the step writes ST less one, not below 0, and then the tone. -/
theorem soundTimerStep : Obligations.SoundTimerStep := by
  intro s
  rw [State.stepSound_eq]
  refine ⟨timer_pred_toNat s.st, rfl, ?_⟩
  exact onlyChanges_trans (onlyChanges_mono (onlyChanges_st s (BitVec.ofNat 8 (s.st.toNat - 1))) (by simp))
    (onlyChanges_mono (onlyChanges_out (s.setSt (BitVec.ofNat 8 (s.st.toNat - 1))) _) (by simp))

theorem dt_mem_mayChange {i : Instr} (h : Part.dt ∈ mayChange i) : ∃ x, i = .ldDtVx x := by
  cases i <;> simp_all [mayChange]

theorem st_mem_mayChange {i : Instr} (h : Part.st ∈ mayChange i) : ∃ x, i = .ldStVx x := by
  cases i <;> simp_all [mayChange]

/-- Settles O15: an instruction other than `Fx15` and `Fx18` leaves the timers to the timer step. -/
theorem timersStepOncePerCycle : Obligations.TimersStepOncePerCycle := by
  intro s t hrun h ht hdt hst
  cases stepsTo_of_step h with
  | halted e hs => simp [hrun] at hs
  | pastEnd e => cases ht
  | raised i e => cases ht
  | unknown w => exact ⟨State.timerStep_dt_toNat _, State.timerStep_st_toNat _, State.timerStep_tone _⟩
  | executed i u hf hexec _ _ htone =>
    have hframe := execChangesOnly i s.fetched u hexec
    have hudt : u.dt = s.dt := hframe .dt fun hmem => by
      obtain ⟨x, rfl⟩ := dt_mem_mayChange hmem
      exact hdt x hf
    have hust : u.st = s.st := hframe .st fun hmem => by
      obtain ⟨x, rfl⟩ := st_mem_mayChange hmem
      exact hst x hf
    exact ⟨by rw [State.timerStep_dt_toNat, hudt], by rw [State.timerStep_st_toNat, hust],
      by rw [State.timerStep_tone, htone, hust, Bool.false_or]⟩

/-- A cycle whose instruction leaves the machine running ends with the timer step. -/
theorem step_of_exec {s u : State} {i : Instr} (hf : fetches s i) (hexec : exec i s.fetched = .next u)
    (hrun : u.status = .running) : step s = .next u.timerStep := by
  rw [step_of_fetches hf, hexec]
  simp only [endExecute, State.endCycle, hrun]

/-- Settles O16: the timer step comes after the instruction's move. -/
theorem timerInstructionCycles : Obligations.TimerInstructionCycles := by
  intro s x
  refine ⟨fun hf => ?_, fun hf => ?_, fun hf => ?_⟩
  · refine ⟨(s.fetched.writeV x s.dt).timerStep, step_of_exec hf rfl hf.running, ?_, State.timerStep_dt_toNat _⟩
    rw [State.timerStep_readV, State.readV_writeV, if_pos rfl]
  · exact ⟨(s.fetched.setDt (s.readV x)).timerStep, step_of_exec hf rfl hf.running, State.timerStep_dt_toNat _⟩
  · exact ⟨(s.fetched.setSt (s.readV x)).timerStep, step_of_exec hf rfl hf.running, State.timerStep_st_toNat _,
      State.timerStep_tone _⟩

/-! ### Whole cycles -/

/-- Settles O8: a raise ends the cycle, and anything else goes on to the timer step. -/
theorem stepRunsDecoded : Obligations.StepRunsDecoded := by
  intro s i hf
  rcases step_of_fetches_cases hf with ⟨e, hexec, hstep⟩ | ⟨u, hexec, hrun, -, -, hstep⟩
  · exact ⟨s.fetched.raise e, hexec, hstep⟩
  · exact ⟨u, hexec, by rw [hstep, if_pos hrun]⟩

theorem onlyChanges_reportUnknown (s : State) (ipc w : Word) : onlyChanges [.out] s (s.reportUnknown ipc w) :=
  onlyChanges_out s _

/-- Settles O9: the report and the timer step, in the state the fetch left. -/
theorem unknownOpcodeCycle : Obligations.UnknownOpcodeCycle := by
  intro s w hrun hpc hw hd
  subst hw
  have hframe : onlyChanges [.pc, .dt, .st, .out] s (s.fetched.reportUnknown s.pc s.fetchWord).timerStep :=
    onlyChanges_trans (onlyChanges_mono (onlyChanges_fetched s) (by simp))
      (onlyChanges_trans (onlyChanges_mono (onlyChanges_reportUnknown _ _ _) (by simp))
        (onlyChanges_mono (onlyChanges_timerStep _) (by simp)))
  exact ⟨_, step_of_unknown hrun hpc hd, (State.timerStep_status _).trans hrun, State.timerStep_pc _,
    State.timerStep_out _, State.timerStep_dt_toNat _, State.timerStep_st_toNat _, hframe⟩

end Sys2Proof.Machine
end

section
/-! SUPPORT. The invariants (10_state.md R27, R30, R38; log entry 7) and the host's operations (60_exceptions.md R151). -/

namespace Sys2Proof.Machine

/-! ### Memory stays canonical -/

@[simp] theorem State.skipIf_mem (s : State) (c : Bool) : (s.skipIf c).mem = s.mem := by
  rw [State.skipIf_eq, State.setPc_mem]

theorem State.storeBytes_memCanonical {s : State} (hs : s.memCanonical) (a : Nat) (bs : List Byte) :
    (s.storeBytes a bs).memCanonical :=
  Memory.writeBytes_wf hs a bs

/-- A raise leaves memory as it was, so an instruction with a check keeps the form where its effect does. -/
theorem memCanonical_of_raiseOr {c : Option FatalError} {s t u : State} (h : raiseOr c s t = .next u)
    (hs : s.memCanonical) (ht : t.memCanonical) : u.memCanonical := by
  rcases raiseOr_cases h with ⟨e, -, rfl⟩ | ⟨-, rfl⟩
  · exact hs
  · exact ht

theorem State.memCanonical_congr {s t : State} (h : t.mem = s.mem) (hs : s.memCanonical) : t.memCanonical := by
  rw [State.memCanonical, h]
  exact hs

theorem exec_memCanonical {i : Instr} {s t : State} (hs : s.memCanonical) (h : exec i s = .next t) : t.memCanonical := by
  cases i with
  | ldB | stMemVx => exact memCanonical_of_raiseOr h hs (State.storeBytes_memCanonical hs _ _)
  | drw | addI | ldMemVx => exact memCanonical_of_raiseOr h hs hs
  | skp | sknp => exact memCanonical_of_raiseOr h hs (State.memCanonical_congr (State.skipIf_mem s _) hs)
  | seVxKk | sneVxKk | seVxVy | sneVxVy => cases h; exact State.memCanonical_congr (State.skipIf_mem s _) hs
  | ret => rcases execRet_cases s with ⟨_, hret⟩ | ⟨_, hret⟩ <;> cases hret.symm.trans h <;> exact hs
  | call nnn => rcases execCall_cases nnn s with ⟨_, hcall⟩ | ⟨_, hcall⟩ <;> cases hcall.symm.trans h <;> exact hs
  | ldVxK x => rcases execLdVxK_cases x s with ⟨_, _, hkey⟩ | ⟨_, hkey⟩ <;> cases hkey.symm.trans h <;> exact hs
  | _ => cases h; exact hs

/-- Settles O19: only `Fx33` and `Fx55` write memory, and their writes keep the form. -/
theorem stepKeepsMemoryCanonical : Obligations.StepKeepsMemoryCanonical := by
  intro s t hs h
  cases stepsTo_of_step h with
  | halted | pastEnd | raised => exact hs
  | unknown => exact State.memCanonical_congr (State.timerStep_mem _) hs
  | executed i u _ hexec =>
    have hu : u.memCanonical := exec_memCanonical (s := s.fetched) hs hexec
    exact State.memCanonical_congr u.timerStep_mem hu

/-! ### pc and the stack slots stay within their bounds -/

theorem State.pcBounded_congr {s t : State} (hpc : t.pc = s.pc) (hstack : t.stack = s.stack) (hs : s.pcBounded) :
    t.pcBounded := by
  rw [State.pcBounded, hpc, hstack]
  exact hs

theorem zextAddr_le (nnn : Addr) : (zextAddr nnn).toNat ≤ 0xFFF := by
  rw [zextAddr_toNat]
  exact Nat.le_of_lt_succ nnn.isLt

/-- R101: the sum of an address and a byte is exact in 16 bits. -/
theorem State.indexedTarget_toNat (s : State) (nnn : Addr) :
    (s.indexedTarget nnn).toNat = nnn.toNat + (s.readV 0).toNat := by
  have hbyte : (zextByte (s.readV 0)).toNat = (s.readV 0).toNat := BitVec.toNat_setWidth_of_le (by decide)
  have := nnn.isLt
  have := (s.readV 0).isLt
  rw [State.indexedTarget, BitVec.toNat_add, zextAddr_toNat, hbyte]
  omega

theorem State.indexedTarget_le (s : State) (nnn : Addr) : (s.indexedTarget nnn).toNat ≤ 0x10FE := by
  have := nnn.isLt
  have := (s.readV 0).isLt
  rw [State.indexedTarget_toNat]
  omega

theorem add_two_toNat_le (pc : Word) : (pc + 2).toNat ≤ pc.toNat + 2 := Nat.mod_le _ _

/-- What a fetch leaves of the bounds: pc at most 0x1000, the address fetched from at most 0xFFE. -/
structure State.fetchBounded (s : State) : Prop where
  pc_le : s.pc.toNat ≤ 0x1000
  ipc_le : s.ipc.toNat ≤ 0xFFE
  stack_le : ∀ j : Fin 16, s.stack[j].toNat ≤ 0x1000

theorem State.fetched_fetchBounded {s : State} (hpc : s.pc.toNat ≤ 0xFFE) (hs : s.pcBounded) :
    s.fetched.fetchBounded where
  pc_le := (add_two_toNat_le s.pc).trans (Nat.add_le_add_right hpc 2)
  ipc_le := by
    rw [State.ipc_of_pc (State.fetched_pc s)]
    exact hpc
  stack_le := hs.2

theorem State.fetchBounded.pcBounded {s : State} (hs : s.fetchBounded) : s.pcBounded :=
  ⟨hs.pc_le.trans (by decide), hs.stack_le⟩

/-- A new pc within its bound keeps the bounds. -/
theorem State.fetchBounded.setPc {s : State} (hs : s.fetchBounded) {a : Word} (ha : a.toNat ≤ 0x10FE) :
    (s.setPc a).pcBounded :=
  ⟨ha, hs.stack_le⟩

theorem State.fetchBounded.skipIf {s : State} (hs : s.fetchBounded) (c : Bool) : (s.skipIf c).pcBounded := by
  rw [State.skipIf_eq]
  refine hs.setPc ?_
  have := hs.pc_le
  split
  · exact (add_two_toNat_le s.pc).trans (by omega)
  · omega

theorem exec_pcBounded {i : Instr} {s t : State} (hs : s.fetchBounded) (h : exec i s = .next t) : t.pcBounded := by
  have hframe : Part.pc ∉ mayChange i → Part.stack ∉ mayChange i → t.pcBounded := fun hpc hstack =>
    State.pcBounded_congr (execChangesOnly i s t h .pc hpc) (execChangesOnly i s t h .stack hstack) hs.pcBounded
  cases i with
  | ret =>
    rcases execRet_cases s with ⟨hsp, hret⟩ | ⟨_, hret⟩ <;> cases hret.symm.trans h
    · exact ⟨(hs.stack_le ⟨s.sp.val - 1, by omega⟩).trans (by decide), hs.stack_le⟩
    · exact hs.pcBounded
  | call nnn =>
    rcases execCall_cases nnn s with ⟨hsp, hcall⟩ | ⟨_, hcall⟩ <;> cases hcall.symm.trans h
    · refine ⟨(zextAddr_le nnn).trans (by decide), fun j => ?_⟩
      simp only [Fin.getElem_fin, Vector.getElem_set]
      split
      · exact hs.pc_le
      · exact hs.stack_le j
    · exact hs.pcBounded
  | ldVxK x =>
    rcases execLdVxK_cases x s with ⟨_, _, hkey⟩ | ⟨_, hkey⟩ <;> cases hkey.symm.trans h
    · exact hs.pcBounded
    · exact hs.setPc (hs.ipc_le.trans (by decide))
  | jp nnn => cases h; exact hs.setPc ((zextAddr_le nnn).trans (by decide))
  | jpV0 nnn => cases h; exact hs.setPc (s.indexedTarget_le nnn)
  | seVxKk | sneVxKk | seVxVy | sneVxVy => cases h; exact hs.skipIf _
  | skp | sknp =>
    rcases raiseOr_cases h with ⟨e, -, rfl⟩ | ⟨-, rfl⟩
    · exact hs.pcBounded
    · exact hs.skipIf _
  | _ => exact hframe (by simp [mayChange]) (by simp [mayChange])

/-- Settles O20: the fetch bounds pc at 0x1000, and every target an instruction writes is within the bound. -/
theorem stepKeepsPcBounded : Obligations.StepKeepsPcBounded := by
  intro s t hs h
  cases stepsTo_of_step h with
  | halted | pastEnd => exact hs
  | unknown w _ hpc =>
    have hfetched := (State.fetched_fetchBounded hpc hs).pcBounded
    exact State.pcBounded_congr (State.timerStep_pc _) (State.timerStep_stack _) hfetched
  | raised i e hf => exact (State.fetched_fetchBounded hf.pc_le hs).pcBounded
  | executed i u hf hexec =>
    have hu : u.pcBounded := exec_pcBounded (State.fetched_fetchBounded hf.pc_le hs) hexec
    exact State.pcBounded_congr u.timerStep_pc u.timerStep_stack hu

/-! ### The run status and the output record agree -/

theorem State.statusAgrees_of_halted {s : State} {e : FatalError} (hs : s.status = .halted e)
    (hout : s.out = Output.quiet (.fatal e)) : s.statusAgrees := by
  rw [State.statusAgrees, hs]
  exact hout

theorem State.statusAgrees_of_running {s : State} (hs : s.status = .running) (herr : ∀ e, s.out.err ≠ .fatal e) :
    s.statusAgrees := by
  rw [State.statusAgrees, hs]
  exact herr

/-- Settles O21: a cycle that ends halted has cleared the flags and raised, and one that goes on reports no fatal error. -/
theorem stepKeepsStatusAgreement : Obligations.StepKeepsStatusAgreement := by
  intro s t _ h
  cases stepsTo_of_step h with
  | halted e hs => exact State.statusAgrees_of_halted hs rfl
  | pastEnd | raised => exact State.statusAgrees_of_halted rfl rfl
  | unknown w hrun => exact State.statusAgrees_of_running ((State.timerStep_status _).trans hrun) (by simp)
  | executed i u _ _ hrun herr =>
    exact State.statusAgrees_of_running ((State.timerStep_status u).trans hrun) (by simp [herr])

/-! ### The host's operations -/

/-- Settles O18: nothing is listed in reset memory, and the other bounds are those of the values reset names. -/
theorem resetMeetsInvariants : Obligations.ResetMeetsInvariants :=
  ⟨State.reset_memory_wf, ⟨by decide, by decide⟩, State.statusAgrees_of_running rfl fun _ => CycleError.noConfusion⟩

/-- Settles O17: both resets leave the same values but for the count of draws, and list no byte of memory. -/
theorem resetValues : Obligations.ResetValues := by
  intro t ht
  obtain ⟨n, rfl⟩ : ∃ n, t = { State.reset with draws := n } := by
    rcases ht with rfl | ⟨s, rfl⟩
    · exact ⟨0, rfl⟩
    · exact ⟨s.draws, rfl⟩
  have hv : ∀ x, State.reset.readV x = 0 := fun x => Vector.getElem_replicate x.isLt
  have hstack : ∀ j : Fin 16, State.reset.stack[j] = 0 := fun j => Vector.getElem_replicate j.isLt
  have hkey : ∀ k : Fin 16, State.reset.key[k] = false := fun k => Vector.getElem_replicate k.isLt
  exact ⟨fun a ha => dif_pos ha, fun a ha => dif_neg (Nat.not_lt.2 ha), hv, rfl, rfl, rfl, hstack, rfl, rfl, hkey,
    Framebuffer.pixel_cleared, rfl, rfl⟩

theorem State.loadProgram_of_lt_length (s : State) {program : List Byte} (h : Config.progMax < program.length) :
    s.loadProgram program = .boundaryError ⟨program.length⟩ :=
  if_pos h

theorem State.setKey_of_lt (s : State) {k : Nat} (h : k < 16) (p : Bool) :
    s.setKey k p = { s with key := s.key.set k p } :=
  dif_pos h

theorem State.setKey_of_le (s : State) {k : Nat} (h : 16 ≤ k) (p : Bool) : s.setKey k p = s :=
  dif_neg (Nat.not_lt.2 h)

/-- Settles O28: each operation by the branch its argument selects. -/
theorem hostOperationFrames : Obligations.HostOperationFrames := by
  refine ⟨fun s program h => ?_, fun s program h => ?_, fun s k p h => ?_, fun s k p h => ?_⟩
  · have hload := s.loadProgram_of_lt_length h
    exact ⟨hload, by rw [State.afterCall, hload]; rfl⟩
  · refine ⟨s.storeBytes Config.progBase program, ?_, onlyChanges_storeBytes s _ _, fun a ha => ?_⟩
    · rw [State.afterCall, s.loadProgram_of_length_le h]
      rfl
    · exact s.readByte_storeBytes_outside _ _ _ ha
  · refine ⟨{ s with key := s.key.set k p }, ?_, ?_, fun j hj => ?_, onlyChanges_key s _⟩
    · rw [State.afterCall, s.setKey_of_lt h]
    · exact Vector.getElem?_set_self h
    · exact Vector.getElem?_set_ne h hj.symm
  · rw [State.afterCall, s.setKey_of_le h]

theorem State.hostReset_inv (s : State) : s.hostReset.inv := resetMeetsInvariants

theorem State.storeBytes_inv {s : State} (hs : s.inv) (a : Nat) (bs : List Byte) : (s.storeBytes a bs).inv := by
  obtain ⟨hmem, hpc, hstatus⟩ := hs
  exact ⟨State.storeBytes_memCanonical hmem a bs, hpc, hstatus⟩

theorem State.setKey_inv {s : State} (hs : s.inv) (k : Nat) (p : Bool) : (s.setKey k p).inv := by
  rcases Nat.lt_or_ge k 16 with h | h
  · rw [s.setKey_of_lt h]
    exact hs
  · rwa [s.setKey_of_le h]

theorem step_inv {s t : State} (hs : s.inv) (h : step s = .next t) : t.inv := by
  obtain ⟨hmem, hpc, hstatus⟩ := hs
  exact ⟨stepKeepsMemoryCanonical s t hmem h, stepKeepsPcBounded s t hpc h, stepKeepsStatusAgreement s t hstatus h⟩

theorem State.afterCall_inv {s : State} (hs : s.inv) (c : HostCall) : ∃ t, s.afterCall c = .next t ∧ t.inv := by
  cases c with
  | reset => exact ⟨_, rfl, s.hostReset_inv⟩
  | loadProgram bytes =>
    refine ⟨_, rfl, ?_⟩
    rcases Nat.lt_or_ge Config.progMax bytes.length with h | h
    · rwa [s.loadProgram_of_lt_length h]
    · rw [s.loadProgram_of_length_le h]
      exact State.storeBytes_inv hs _ _
  | setKey k p => exact ⟨_, rfl, State.setKey_inv hs k p⟩
  | runCycle =>
    obtain ⟨t, ht⟩ := stepAlwaysAnswers s
    exact ⟨t, ht, step_inv hs ht⟩

/-- Settles O22, by induction on the calls: each is answered and keeps the invariants. -/
theorem hostCallsKeepInvariants : Obligations.HostCallsKeepInvariants := by
  intro s calls
  induction calls generalizing s with
  | nil => exact fun hs => ⟨s, rfl, hs⟩
  | cons c cs ih =>
    intro hs
    obtain ⟨t, hcall, ht⟩ := State.afterCall_inv hs c
    obtain ⟨u, hcalls, hu⟩ := ih t ht
    exact ⟨u, by rw [State.afterCalls, hcall]; exact hcalls, hu⟩

end Sys2Proof.Machine
end

section
/-! SUPPORT. The call stack, the register skips and the indexed jump (41_control_flow.md). -/

namespace Sys2Proof.Machine

/-- R93, R95: with room, or an address, on the stack, the call and the return are the first of their two cases. -/
theorem execCall_of_lt (nnn : Addr) {s : State} (h : s.sp.val < 16) : execCall nnn s = .next { s with
    stack := s.stack.set s.sp.val s.pc, sp := ⟨s.sp.val + 1, by omega⟩, pc := zextAddr nnn } := by
  rcases execCall_cases nnn s with ⟨_, hcall⟩ | ⟨hfull, -⟩
  · exact hcall
  · omega

theorem execRet_of_pos {s : State} (h : 0 < s.sp.val) :
    execRet s = .next { s with sp := ⟨s.sp.val - 1, by omega⟩, pc := s.stack[s.sp.val - 1] } := by
  rcases execRet_cases s with ⟨_, hret⟩ | ⟨hempty, -⟩
  · exact hret
  · omega

/-- Settles O29: the slot below the stack pointer goes to pc. -/
theorem returnPops : Obligations.ReturnPops := by
  refine ⟨encodedAs_own_row .ret, fun s h => ?_⟩
  exact ⟨_, execRet_of_pos h, Nat.sub_add_cancel h, Vector.getElem?_eq_getElem _, onlyChanges_pop s _ _⟩

/-- Settles O30: the first free slot gets pc, and pc the address. -/
theorem callPushes : Obligations.CallPushes := by
  refine ⟨fun nnn => encodedAs_own_row (.call nnn), fun nnn s h => ?_⟩
  exact ⟨_, execCall_of_lt nnn h, rfl, Vector.getElem?_set_self h, fun j hj => Vector.getElem?_set_ne h hj.symm,
    zextAddr_toNat nnn, onlyChanges_stack s _ _ _⟩

/-- Settles O31: with no word to pop, or no slot to push to, the instruction raises. -/
theorem stackErrors : Obligations.StackErrors := by
  intro s ipc hpc
  rw [← State.ipc_of_pc hpc]
  refine ⟨fun h => raises_of_exec ?_, fun h nnn => raises_of_exec ?_⟩
  · rw [exec, execRet, State.pop_empty s h]
  · rw [exec, execCall, State.push_full s _ h]

/-- Settles O34: the decoder drops the low nibble, and each skip is `State.skipIf` on its comparison. -/
theorem skipOnRegisters : Obligations.SkipOnRegisters := by
  refine ⟨fun x y => ⟨?_, ?_⟩, fun x y n => ⟨?_, ?_⟩, fun x y s => ⟨?_, ?_⟩⟩
  · exact encodedAs_own_row (.seVxVy x y)
  · exact encodedAs_own_row (.sneVxVy x y)
  · simp [decode]
  · simp [decode]
  · exact ⟨s.skipIf (s.readV x == s.readV y), rfl, s.skipIf_beq_pc _ _, onlyChanges_skipIf s _⟩
  · exact ⟨s.skipIf (s.readV x != s.readV y), rfl, s.skipIf_bne_pc _ _, onlyChanges_skipIf s _⟩

/-- Settles O35: the sum of the address and V0 is exact in 16 bits. -/
theorem indexedJump : Obligations.IndexedJump := by
  refine ⟨fun nnn => encodedAs_own_row (.jpV0 nnn), fun nnn s => ?_⟩
  exact ⟨s.setPc (s.indexedTarget nnn), rfl, s.indexedTarget_toNat nnn, s.indexedTarget_le nnn, onlyChanges_pc s _⟩

end Sys2Proof.Machine
end

section
/-! SUPPORT. The ALU (42_alu.md): the logic operations, the instructions with a flag, and the random byte. -/

namespace Sys2Proof.Machine

theorem State.readV_writeV_self (s : State) (x : Nibble) (b : Byte) : (s.writeV x b).readV x = b := by
  rw [State.readV_writeV, if_pos rfl]

/-- Settles O38: the one write is that of the bitwise operation to Vx. -/
theorem logicOperations : Obligations.LogicOperations := by
  refine ⟨fun x y => ⟨?_, ?_, ?_⟩, fun x y s => ⟨?_, ?_, ?_⟩⟩
  · exact encodedAs_own_row (.orVxVy x y)
  · exact encodedAs_own_row (.andVxVy x y)
  · exact encodedAs_own_row (.xorVxVy x y)
  · refine ⟨s.writeV x (s.readV x ||| s.readV y), rfl, fun k hk => s.readV_writeV_ne _ hk, onlyChanges_writeV s x _,
      fun b => ?_⟩
    rw [State.readV_writeV_self, BitVec.getLsbD_or]
  · refine ⟨s.writeV x (s.readV x &&& s.readV y), rfl, fun k hk => s.readV_writeV_ne _ hk, onlyChanges_writeV s x _,
      fun b => ?_⟩
    rw [State.readV_writeV_self, BitVec.getLsbD_and]
  · refine ⟨s.writeV x (s.readV x ^^^ s.readV y), rfl, fun k hk => s.readV_writeV_ne _ hk, onlyChanges_writeV s x _,
      fun b => ?_⟩
    rw [State.readV_writeV_self, BitVec.getLsbD_xor]

/-- R103: a result and its flag as numbers, the flag written last. -/
theorem State.readV_writeResultFlag_toNat (s : State) (x : Nibble) {r f : Byte} {m n : Nat} (hf : f.toNat = m)
    (hr : r.toNat = n) (k : Nibble) :
    ((s.writeResultFlag x r f).readV k).toNat = if k = 15 then m else if k = x then n else (s.readV k).toNat := by
  rw [State.readV_writeResultFlag, apply_ite BitVec.toNat, apply_ite BitVec.toNat, hf, hr]

theorem sub_byte_toNat (a b : Byte) : (a - b).toNat = (a.toNat + 256 - b.toNat) % 256 := by
  have := b.isLt
  rw [BitVec.toNat_sub]
  congr 1
  omega

theorem shiftRight_byte_toNat (a : Byte) : (a >>> 1).toNat = a.toNat / 2 := by
  rw [BitVec.toNat_ushiftRight, Nat.shiftRight_eq_div_pow, Nat.pow_one]

theorem shiftLeft_byte_toNat (a : Byte) : (a <<< 1).toNat = 2 * a.toNat % 256 := by
  rw [BitVec.toNat_shiftLeft, Nat.shiftLeft_eq, Nat.pow_one, Nat.mul_comm]

/-- Settles O39: the sum and the carry of the exact sum. -/
theorem addWithCarry : Obligations.AddWithCarry := by
  refine ⟨fun x y => encodedAs_own_row (.addVxVy x y), fun x y s => ?_⟩
  exact ⟨_, rfl, onlyChanges_writeResultFlag s x _ _,
    s.readV_writeResultFlag_toNat x (carryFlag_toNat _ _) (BitVec.toNat_add _ _)⟩

/-- Settles O40: the difference and the not-borrow. -/
theorem subtractNotBorrow : Obligations.SubtractNotBorrow := by
  refine ⟨fun x y => encodedAs_own_row (.subVxVy x y), fun x y s => ?_⟩
  exact ⟨_, rfl, onlyChanges_writeResultFlag s x _ _,
    s.readV_writeResultFlag_toNat x (notBorrowFlag_toNat _ _) (sub_byte_toNat _ _)⟩

/-- Settles O41: the difference the other way and its not-borrow. -/
theorem reverseSubtractNotBorrow : Obligations.ReverseSubtractNotBorrow := by
  refine ⟨fun x y => encodedAs_own_row (.subnVxVy x y), fun x y s => ?_⟩
  exact ⟨_, rfl, onlyChanges_writeResultFlag s x _ _,
    s.readV_writeResultFlag_toNat x (notBorrowFlag_toNat _ _) (sub_byte_toNat _ _)⟩

/-- Settles O42: each shift and the bit it drops. -/
theorem shiftsByOne : Obligations.ShiftsByOne := by
  refine ⟨fun x y => ⟨encodedAs_own_row (.shrVx x y), encodedAs_own_row (.shlVx x y)⟩, fun x y s => ⟨?_, ?_⟩⟩
  · exact ⟨_, rfl, onlyChanges_writeResultFlag s x _ _,
      s.readV_writeResultFlag_toNat x (droppedRightFlag_toNat _) (shiftRight_byte_toNat _)⟩
  · exact ⟨_, rfl, onlyChanges_writeResultFlag s x _ _,
      s.readV_writeResultFlag_toNat x (droppedLeftFlag_toNat _) (shiftLeft_byte_toNat _)⟩

/-- Writing to a register what it holds changes no register. -/
theorem State.readV_writeV_readV (s : State) (x k : Nibble) : (s.writeV x (s.readV x)).readV k = s.readV k := by
  rw [State.readV_writeV]
  split
  · next h => rw [h]
  · rfl

theorem carryFlag_same (a : Byte) : carryFlag a a = if a.getLsbD 7 then 1 else 0 := by
  have hsum : 255 < a.toNat + a.toNat ↔ a.getLsbD 7 = true := by
    have := a.isLt
    rw [BitVec.getLsbD, Nat.testBit_eq_decide_div_mod_eq, decide_eq_true_iff]
    omega
  simp only [carryFlag, flagByte, hsum, Bool.decide_eq_true]
  rfl

theorem notBorrowFlag_same (a : Byte) : notBorrowFlag a a = 0 := by
  rw [notBorrowFlag, decide_eq_false (Nat.lt_irrefl _)]
  rfl

/-- A subtract of a register from itself clears the register and VF. -/
theorem State.readV_writeResultFlag_zero (s : State) (x k : Nibble) (h : k = 15 ∨ k = x) :
    (s.writeResultFlag x 0 0).readV k = 0 := by
  rw [State.readV_writeResultFlag]
  rcases h with rfl | rfl <;> simp

/-- Settles O43: each operation with its operands the same. -/
theorem sameRegisterOperands : Obligations.SameRegisterOperands := by
  intro x s t
  refine ⟨?_, ?_, ?_, ?_⟩
  · rintro (h | h | h) k <;> cases h
    · exact s.readV_writeV_readV x k
    · rw [BitVec.or_self]
      exact s.readV_writeV_readV x k
    · rw [BitVec.and_self]
      exact s.readV_writeV_readV x k
  · intro h k
    cases h
    rw [BitVec.xor_self]
    exact s.readV_writeV x 0 k
  · intro h
    cases h
    constructor
    · rw [State.readV_writeResultFlag, if_pos rfl, carryFlag_same]
    · intro hx
      rw [State.readV_writeResultFlag, if_neg hx, if_pos rfl, BitVec.toNat_add, ← Nat.two_mul]
  · intro h
    have ht : t = s.writeResultFlag x 0 0 := by
      rcases h with h | h <;> cases h <;> rw [BitVec.sub_self, notBorrowFlag_same] <;> rfl
    rw [ht]
    exact ⟨s.readV_writeResultFlag_zero x 15 (.inl rfl), s.readV_writeResultFlag_zero x x (.inr rfl)⟩

/-- Settles O44: the masked draw is written to Vx, and the count of draws goes on. -/
theorem randomByteMasked : Obligations.RandomByteMasked := by
  refine ⟨fun x kk => encodedAs_own_row (.rnd x kk), fun x kk s => ?_⟩
  refine ⟨s.draw.2.writeV x (Config.draw s.draws &&& kk), rfl, rfl, fun k hk => State.readV_writeV_ne _ _ hk,
    onlyChanges_draw s _ _, fun b => ?_⟩
  rw [State.readV_writeV_self, BitVec.getLsbD_and]

end Sys2Proof.Machine
end

section
/-! SUPPORT. The address register and the memory transfers through it (43_index_memory.md). -/

namespace Sys2Proof.Machine

/-- Settles O46: a sum that fits I is written to it, and one that does not is raised. -/
theorem addToIndex : Obligations.AddToIndex := by
  refine ⟨fun x => encodedAs_own_row (.addI x), fun x s => ⟨fun h => ?_, fun ipc hpc h => ?_⟩⟩
  · have hsum : (BitVec.ofNat 16 (s.indexSum x)).toNat = s.indexSum x :=
      (BitVec.toNat_ofNat _ _).trans (Nat.mod_eq_of_lt (Nat.lt_succ_of_le h))
    exact ⟨s.setI (BitVec.ofNat 16 (s.indexSum x)), raiseOr_none (State.checkIreg_none h) _ _, hsum,
      onlyChanges_setI s _⟩
  · rw [← State.ipc_of_pc hpc]
    exact raises_of_exec (raiseOr_some (State.checkIreg_some h) _ _)

/-! ### Accesses within memory -/

/-- R124: the address of byte `k` of an access is `k` above its first. -/
theorem State.effAddr_zero_add (s : State) (k : Nat) : s.effAddr 0 + k = s.effAddr k := rfl

theorem exec_ldB_of_le (x : Nibble) {s : State} (h : s.i.toNat + 2 ≤ 0xFFF) :
    exec (.ldB x) s = .next (s.storeBytes (s.effAddr 0) (decimalDigits (s.readV x))) :=
  raiseOr_none (State.checkRange_none (.inr h)) _ _

theorem exec_stMemVx_of_le {x : Nibble} {s : State} (h : s.i.toNat + x.toNat ≤ 0xFFF) :
    exec (.stMemVx x) s = .next (s.storeBytes (s.effAddr 0) (s.readVs x)) :=
  raiseOr_none (State.checkRange_none (.inr h)) _ _

theorem exec_ldMemVx_of_le {x : Nibble} {s : State} (h : s.i.toNat + x.toNat ≤ 0xFFF) :
    exec (.ldMemVx x) s = .next (s.writeVs (s.readBytes (s.effAddr 0) (x.toNat + 1))) :=
  raiseOr_none (State.checkRange_none (.inr h)) _ _

theorem decimalDigits_toNat (b : Byte) :
    (decimalDigits b).map BitVec.toNat = [b.toNat / 100, b.toNat / 10 % 10, b.toNat % 10] := by
  have := b.isLt
  simp only [decimalDigits, List.map_cons, List.map_nil, BitVec.toNat_ofNat, List.cons.injEq, and_true]
  omega

/-- Settles O48: the three digits are stored within memory, and read back there. -/
theorem decimalDigitsStored : Obligations.DecimalDigitsStored := by
  refine ⟨fun x => encodedAs_own_row (.ldB x), fun x s hs h => ?_⟩
  have hdigit : ∀ k (hk : k < 3),
      ((s.storeBytes (s.effAddr 0) (decimalDigits (s.readV x))).readByte (s.effAddr k)).toNat =
      [(s.readV x).toNat / 100, (s.readV x).toNat / 10 % 10, (s.readV x).toNat % 10][k] := fun k hk => by
    have hread :=
      State.readByte_storeBytes_inside hs (s.effAddr 0) (decimalDigits (s.readV x)) (Nat.lt_succ_of_le h) k hk
    rw [← s.effAddr_zero_add k, hread]
    simp only [← decimalDigits_toNat, List.getElem_map]
    rfl
  refine ⟨_, exec_ldB_of_le x h, hdigit 0 (by decide), hdigit 1 (by decide), hdigit 2 (by decide), fun a ha => ?_,
    onlyChanges_storeBytes s _ _⟩
  exact s.readByte_storeBytes_outside _ _ _ ha

/-- Settles O49: V0 to Vx are stored within memory, and read back there. -/
theorem registersStored : Obligations.RegistersStored := by
  refine ⟨fun x => encodedAs_own_row (.stMemVx x), fun x s hs h => ?_⟩
  have hlen := s.length_readVs x
  have hbound : s.effAddr 0 + (s.readVs x).length ≤ Config.memSize := by
    rw [hlen]
    exact Nat.lt_succ_of_le h
  refine ⟨_, exec_stMemVx_of_le h, fun k hk => ?_, fun a ha => ?_, onlyChanges_storeBytes s _ _⟩
  · have hk' : k.toNat < (s.readVs x).length := by omega
    rw [← s.effAddr_zero_add k.toNat, State.readByte_storeBytes_inside hs _ _ hbound _ hk', State.getElem_readVs]
  · refine s.readByte_storeBytes_outside _ _ _ (ha.imp_right fun ha => ?_)
    rw [hlen]
    exact ha

/-- Settles O50: each register up to Vx gets its byte. -/
theorem registersLoaded : Obligations.RegistersLoaded := by
  refine ⟨fun x => encodedAs_own_row (.ldMemVx x), fun x s h => ?_⟩
  refine ⟨_, exec_ldMemVx_of_le h, fun k => ?_, onlyChanges_writeVs s _⟩
  rw [State.readV_writeVs]
  simp only [State.length_readBytes, State.getElem_readBytes, Nat.lt_succ_iff]
  rfl

/-- R122: after any successful `Fx55` within memory, byte `k` at I is Vk. -/
theorem readByte_of_exec_stMemVx {x : Nibble} {s t : State} (hs : s.memCanonical) (h : s.i.toNat + x.toNat ≤ 0xFFF)
    (ht : exec (.stMemVx x) s = .next t) (k : Nibble) (hk : k.toNat ≤ x.toNat) :
    t.readByte (s.i.toNat + k.toNat) = s.readV k := by
  obtain ⟨t', hexec, hread, -, -⟩ := registersStored.2 x s hs h
  cases hexec.symm.trans ht
  exact hread k hk

/-- Settles O52: the load reads the bytes that the store wrote. -/
theorem storeLoadRoundTrip : Obligations.StoreLoadRoundTrip := by
  intro x s t u hs h ht hi hmem
  have hui : u.i = s.i := hi.trans (execChangesOnly _ _ _ ht .i (by simp [mayChange]))
  obtain ⟨w, hexec, hread, -⟩ := registersLoaded.2 x u (by rwa [hui])
  refine ⟨w, hexec, fun k hk => ?_⟩
  rw [hread, if_pos hk, hmem, hui, readByte_of_exec_stMemVx hs h ht k hk]

/-- Settles O53: the fetch reads the two bytes that the store wrote. -/
theorem storedWordIsFetched : Obligations.StoredWordIsFetched := by
  intro x k j s t u hs h ht hj hjx hmem hpc
  have hu : ∀ a, u.readByte a = t.readByte a := fun a => by rw [State.readByte, hmem]; rfl
  have hk := readByte_of_exec_stMemVx hs h ht k (by omega)
  have hj' := readByte_of_exec_stMemVx hs h ht j hjx
  rw [fetchIsBigEndian, hpc, hu, hu, hk, Nat.add_assoc, ← hj, hj']

/-- Settles O51: the range check of each of the four fails. -/
theorem accessPastEndHalts : Obligations.AccessPastEndHalts := by
  intro s ipc x y n hpc
  rw [← State.ipc_of_pc hpc]
  refine ⟨fun h => ?_, fun h => ?_, fun h => ?_, fun hn h => ?_⟩
  · exact raises_of_exec (raiseOr_some (State.checkRange_some (by decide) h) _ _)
  · exact raises_of_exec (raiseOr_some (State.checkRange_some (Nat.succ_pos _) h) _ _)
  · exact raises_of_exec (raiseOr_some (State.checkRange_some (Nat.succ_pos _) h) _ _)
  · exact raises_of_exec (raiseOr_some (State.checkRange_some hn h) _ _)

end Sys2Proof.Machine
end

section
/-! SUPPORT. The display (44_display.md). -/

namespace Sys2Proof.Machine

/-- Settles O54: the cleared framebuffer has every pixel off. -/
theorem clearDisplay : Obligations.ClearDisplay :=
  ⟨encodedAs_own_row .cls, fun s => ⟨_, rfl, Framebuffer.pixel_cleared, rfl, onlyChanges_fb s _ _⟩⟩

theorem exec_drw_of_le {x y n : Nibble} {s : State} (h : n.toNat = 0 ∨ s.i.toNat + n.toNat - 1 ≤ 0xFFF) :
    exec (.drw x y n) s = .next (s.afterBlit (s.blitSprite x y n)) :=
  raiseOr_none (State.checkRange_none h) _ _

theorem State.readV_afterBlit_flag (s : State) (a : Blit) : (s.afterBlit a).readV 15 = flagByte a.2 := by
  rw [State.readV_afterBlit, if_pos rfl]

theorem flagByte_eq_one_iff (b : Bool) : flagByte b = 1 ↔ b = true := by cases b <;> decide

theorem flagByte_eq_zero_or_one (b : Bool) : flagByte b = 0 ∨ flagByte b = 1 := by cases b <;> decide

/-- Settles O55: the blit flips the pixels the sprite covers, and VF is its collision bit. -/
theorem spriteDrawn : Obligations.SpriteDrawn := by
  refine ⟨fun x y n => encodedAs_own_row (.drw x y n), fun x y n s h => ?_⟩
  refine ⟨_, exec_drw_of_le h, fun px py hx hy => s.blitSprite_pixel x y n px py ⟨hx, hy⟩, ?_, ?_,
    fun k hk => s.readV_afterBlit_ne _ hk, rfl, onlyChanges_afterBlit s _⟩
  · rw [State.readV_afterBlit_flag]
    exact flagByte_eq_zero_or_one _
  · rw [State.readV_afterBlit_flag, flagByte_eq_one_iff, State.blitSprite_collision]

/-- A sprite collides exactly where it turns a pixel off. -/
theorem State.blitSprite_collision_iff_off (s : State) (x y n : Nibble) : (s.blitSprite x y n).2 = true ↔
    ∃ px ∈ List.range 64, ∃ py ∈ List.range 32,
      Framebuffer.pixel s.fb px py = true ∧ Framebuffer.pixel (s.blitSprite x y n).1 px py = false := by
  have hoff : ∀ px py, px < 64 → py < 32 → Framebuffer.pixel s.fb px py = true →
      (s.spriteCovers x y n px py = true ↔ Framebuffer.pixel (s.blitSprite x y n).1 px py = false) :=
    fun px py hx hy hon => by simp [s.blitSprite_pixel x y n px py ⟨hx, hy⟩, hon]
  rw [State.blitSprite_collision]
  simp only [List.mem_range]
  constructor
  · rintro ⟨px, py, hx, hy, hon, hcov⟩
    exact ⟨px, hx, py, hy, hon, (hoff px py hx hy hon).1 hcov⟩
  · rintro ⟨px, hx, py, hy, hon, hpix⟩
    exact ⟨px, py, hx, hy, hon, (hoff px py hx hy hon).2 hpix⟩

/-- What a sprite covers depends on I, its registers and memory only. -/
theorem State.spriteCovers_congr {s u : State} {x y : Nibble} (n : Nibble) (hi : u.i = s.i) (hx : u.readV x = s.readV x)
    (hy : u.readV y = s.readV y) (hmem : ∀ a, u.readByte a = s.readByte a) (px py : Nat) :
    u.spriteCovers x y n px py = s.spriteCovers x y n px py := by
  simp only [State.spriteCovers, hi, hx, hy, hmem]

/-- Settles O56: a covered pixel that was on goes off, and a second flip of the same pixels undoes the first. -/
theorem collisionAndRedraw : Obligations.CollisionAndRedraw := by
  constructor
  · intro x y n s h
    refine ⟨_, exec_drw_of_le h, ?_⟩
    rw [State.readV_afterBlit_flag]
    exact if_congr (s.blitSprite_collision_iff_off x y n) rfl rfl
  · intro x y n s t u h ht hfb hi hx hy hmem
    cases (exec_drw_of_le h).symm.trans ht
    have hcov := State.spriteCovers_congr n hi hx hy hmem
    have hfirst : ∀ px py, px < 64 → py < 32 →
        Framebuffer.pixel u.fb px py = (Framebuffer.pixel s.fb px py != s.spriteCovers x y n px py) :=
      fun px py hpx hpy => by rw [hfb]; exact s.blitSprite_pixel x y n px py ⟨hpx, hpy⟩
    refine ⟨_, exec_drw_of_le (by rwa [hi]), Framebuffer.ext_pixel fun px py hpx hpy => ?_, ?_⟩
    · rw [State.afterBlit_fb, State.blitSprite_pixel _ _ _ _ _ _ ⟨hpx, hpy⟩, hcov, hfirst px py hpx hpy]
      simp
    · rintro ⟨px, py, hoff, hon⟩
      obtain ⟨hpx, hpy⟩ : px < 64 ∧ py < 32 := by
        by_contra hout
        rw [Framebuffer.pixel_outside hout] at hon
        cases hon
      have hon' : Framebuffer.pixel u.fb px py = true := by rw [hfb]; exact hon
      rw [State.readV_afterBlit_flag, flagByte_eq_one_iff, State.blitSprite_collision]
      refine ⟨px, py, hpx, hpy, hon', ?_⟩
      rw [hcov]
      simpa [hfirst px py hpx hpy, hoff] using hon'

/-- Settles O57: no byte is read, so the blit is of no rows. -/
theorem drawNothing : Obligations.DrawNothing := by
  intro x y s
  refine ⟨s.afterBlit (s.fb, false), exec_drw_of_le (.inl rfl), rfl, s.readV_afterBlit_flag _,
    fun k hk => s.readV_afterBlit_ne _ hk, rfl, ?_⟩
  exact onlyChanges_trans (onlyChanges_mono (onlyChanges_out s { s.out with fbChanged := true }) (by simp))
    (onlyChanges_mono (onlyChanges_writeV _ regVF _) (by simp))

end Sys2Proof.Machine
end

section
/-! SUPPORT. The keys and the timers' instructions (45_keys_timers.md). -/

namespace Sys2Proof.Machine

/-- Settles O58: an index of a key passes the check, and the skip is on the key's latch; an index above 0xF is raised. -/
theorem keyTests : Obligations.KeyTests := by
  refine ⟨fun x => ⟨encodedAs_own_row (.skp x), encodedAs_own_row (.sknp x)⟩, fun x s pressed h => ?_,
    fun x s ipc hpc h => ?_⟩
  · have hkey : s.keyAt (s.keyIndex x) = pressed := State.keyAt_of_getElem? h
    obtain ⟨hlt, -⟩ := Vector.getElem?_eq_some_iff.1 h
    have hcheck : s.checkKey (s.keyIndex x) = none := State.checkKey_none (Nat.le_of_lt_succ hlt)
    refine ⟨⟨_, raiseOr_none hcheck _ _, ?_, onlyChanges_skipIf s _⟩,
      ⟨_, raiseOr_none hcheck _ _, ?_, onlyChanges_skipIf s _⟩⟩
    · rw [State.skipIf_pc, hkey]
    · rw [State.skipIf_pc, hkey]
      cases pressed <;> rfl
  · rw [← State.ipc_of_pc hpc]
    have hcheck := State.checkKey_some (s := s) h
    exact ⟨raises_of_exec (raiseOr_some hcheck _ _), raises_of_exec (raiseOr_some hcheck _ _)⟩

theorem exec_ldVxK_of_some (x : Nibble) {s : State} {k : Nat} (h : s.lowestKey = some k) :
    exec (.ldVxK x) s = .next (s.writeV x (BitVec.ofNat 8 k)) := by
  rw [exec, execLdVxK, h]

theorem exec_ldVxK_of_none (x : Nibble) {s : State} (h : s.lowestKey = none) :
    exec (.ldVxK x) s = .next (s.setPc s.ipc) := by
  rw [exec, execLdVxK, h]

/-- Settles O59: the search for the lowest pressed key finds it, or finds none. -/
theorem keyWait : Obligations.KeyWait := by
  refine ⟨fun x => encodedAs_own_row (.ldVxK x), fun x s k hk hlow => ?_, fun x s ipc hpc hnone => ?_⟩
  · obtain ⟨hlt, -⟩ := Vector.getElem?_eq_some_iff.1 hk
    have hlowest : s.lowestKey = some k :=
      State.lowestKey_eq hlt (State.keyAt_of_getElem? hk) fun j hj => State.keyAt_of_getElem? (hlow j hj)
    refine ⟨_, exec_ldVxK_of_some x hlowest, ?_, fun j hj => s.readV_writeV_ne _ hj, onlyChanges_writeV s x _⟩
    rw [State.readV_writeV_self, BitVec.toNat_ofNat, Nat.mod_eq_of_lt (hlt.trans (by decide))]
  · have hlowest : s.lowestKey = none := State.lowestKey_none fun j hj =>
      State.keyAt_of_getElem? (Vector.getElem?_eq_some_iff.2 ⟨hj, hnone ⟨j, hj⟩⟩)
    exact ⟨_, exec_ldVxK_of_none x hlowest, State.ipc_of_pc hpc, onlyChanges_pc s _⟩

/-- Settles O60: each of the three is one move. -/
theorem timerMoves : Obligations.TimerMoves := by
  refine ⟨fun x => ⟨?_, ?_, ?_⟩, fun x s => ⟨?_, ?_, ?_⟩⟩
  · exact encodedAs_own_row (.ldVxDt x)
  · exact encodedAs_own_row (.ldDtVx x)
  · exact encodedAs_own_row (.ldStVx x)
  · exact ⟨s.writeV x s.dt, rfl, s.readV_writeV x s.dt, onlyChanges_writeV s x _⟩
  · exact ⟨s.setDt (s.readV x), rfl, rfl, onlyChanges_dt s _⟩
  · exact ⟨s.setSt (s.readV x), rfl, rfl, onlyChanges_st s _⟩

end Sys2Proof.Machine
end
